-- ==== Sys2Proof/Word.lean ====
section
/-! DEFINITION. The plain words of CORE: the 32-bit word of registers and memory, the 96-bit instruction word, the register
number. -/

namespace Sys2Proof

/-- A register value, memory word, immediate, ALU result, program counter: a 32-bit pattern (R7, R13 and D1, D15). -/
abbrev Word := BitVec 32

/-- An instruction word, `ILEN = 96` bits (R45). Bit 95 is the first bit of the word. -/
abbrev InstrWord := BitVec 96

/-- A register number: a 5-bit field, so every number that can be written names a register (R10). -/
abbrev Reg := BitVec 5

end Sys2Proof
end

