-- ==== Sys2Proof/Config.lean ====
section
/-! DEFINITION. The fixed parameters of CORE (R6) and the type of the open one, `SRL_FILL`. The parameters the spec leaves open,
`MEM_SIZE` and `SRL_FILL`, are fields of State (a run fixes them, no cycle changes them); the values `State.reset` gives them are
in Machine/Params.lean. There is no free value: `spec/93_implementation_defined.md` ends section 1 with "There is no `any value`
result visible to software". -/

namespace Sys2Proof.Config

/-- `REG_COUNT` (R6). -/
def regCount : Nat := 32

/-- `WORD_SIZE`, the divisor of a byte address (R6, R31). -/
def wordSize : Int := 4

/-- The largest program length, `2^31 - 1` (R6, R56 check 1, D15). -/
def maxProgLen : Nat := 2147483647

end Sys2Proof.Config

namespace Sys2Proof

/-- `SRL_FILL` of R6 and D5: which bit SRL shifts in at bit 31. The spec's value is `zero`; U2 allows a model to leave the point
open as this parameter (log 3). -/
inductive SrlFill where
  | zero
  | sign
  deriving DecidableEq, Repr

end Sys2Proof
end

