-- ==== Sys2Proof/Syntax.lean ====
section
/-! DEFINITION. The instruction set: one constructor per row of spec/opcode_table.json (R2, R50), with the fields its format
uses (R47) in the order of the assembler's operands (R62). -/

namespace Sys2Proof

/-- The thirteen instructions. Register fields are 5-bit numbers; `imm`, `shamt`, `offset` and `address` are the whole 32-bit
fields of the word (R45, R48). The all-zero word is `nop`, which is also the bubble (R53). -/
inductive Instr where
  /-- No operation, and the bubble (R102, R103). -/
  | nop
  /-- `ADD rd, rs, rt` (R90). -/
  | add (rd rs rt : Reg)
  /-- `SUB rd, rs, rt` (R91). -/
  | sub (rd rs rt : Reg)
  /-- `MUL rd, rs, rt` (R92). -/
  | mul (rd rs rt : Reg)
  /-- `AND rd, rs, rt` (R93). -/
  | and (rd rs rt : Reg)
  /-- `OR rd, rs, rt` (R94). -/
  | or (rd rs rt : Reg)
  /-- `ADDI rt, rs, immediate` (R95). -/
  | addi (rt rs : Reg) (imm : Word)
  /-- `SLL rd, rt, shamt` (R96). -/
  | sll (rd rt : Reg) (shamt : Word)
  /-- `SRL rd, rt, shamt` (R97). -/
  | srl (rd rt : Reg) (shamt : Word)
  /-- `LW rt, offset(base)` (R98). -/
  | lw (rt base : Reg) (offset : Word)
  /-- `SW rt, offset(base)` (R99). -/
  | sw (rt base : Reg) (offset : Word)
  /-- `BEQ rs, rt, label` (R100); the label is resolved into `address`. -/
  | beq (rs rt : Reg) (address : Word)
  /-- `J label` (R101). -/
  | j (address : Word)
  deriving DecidableEq, Repr

/-- `valid(I)` of R49: the instruction is no NOP, and the slot that holds it is no bubble. -/
def Instr.valid : Instr → Bool
  | .nop => false
  | .add _ _ _ | .sub _ _ _ | .mul _ _ _ | .and _ _ _ | .or _ _ _ => true
  | .addi _ _ _ | .sll _ _ _ | .srl _ _ _ => true
  | .lw _ _ _ | .sw _ _ _ | .beq _ _ _ | .j _ => true

end Sys2Proof
end

