-- ==== Sys2Proof/WellFormed.lean ====
section
/-! DEFINITION. The well-formedness of an instruction (R56 checks 4 and 5): what the loader demands of an instruction beyond
what the constructors of Instr already rule out. -/

namespace Sys2Proof

/-- R56 check 4: a shift amount lies in `0 .. 31` (read as signed or unsigned, the same set of patterns). -/
def shiftAmountOk (shamt : Word) : Bool := decide (shamt.toNat ≤ 31)

/-- R56 check 5: a branch or jump target is not negative read as signed; -1 is the mark of an unresolved label (D11). A target
beyond the program is no error (D12). -/
def targetOk (address : Word) : Bool := decide (0 ≤ address.toInt)

/-- An instruction the loader admits (R56). -/
def Instr.wellFormed : Instr → Bool
  | .nop => true
  | .add _ _ _ | .sub _ _ _ | .mul _ _ _ | .and _ _ _ | .or _ _ _ => true
  | .addi _ _ _ | .lw _ _ _ | .sw _ _ _ => true
  | .sll _ _ shamt => shiftAmountOk shamt
  | .srl _ _ shamt => shiftAmountOk shamt
  | .beq _ _ address => targetOk address
  | .j address => targetOk address

end Sys2Proof
end

