-- ==== Sys2Proof/Decode.lean ====
section
/-! DEFINITION. The instruction word: its fields (R45), decoding (R50, R51, R56), encoding (R62), the loader's check of a whole
image (R56). -/

namespace Sys2Proof

/-! ### Fields of the word -/

/-- The seven fields of the one layout (R45). -/
structure Fields where
  opcode : BitVec 4
  rs : Reg
  rt : Reg
  rd : Reg
  zero : BitVec 13
  imm : Word
  address : Word
  deriving DecidableEq, Repr

/-- Bits 95:92, 91:87, 86:82, 81:77, 76:64, 63:32, 31:0 (R45). -/
def unpack (w : InstrWord) : Fields where
  opcode := w.extractLsb' 92 4
  rs := w.extractLsb' 87 5
  rt := w.extractLsb' 82 5
  rd := w.extractLsb' 77 5
  zero := w.extractLsb' 64 13
  imm := w.extractLsb' 32 32
  address := w.extractLsb' 0 32

/-- The fields joined, first field in the high bits (R45). -/
def pack (f : Fields) : InstrWord :=
  f.opcode ++ f.rs ++ f.rt ++ f.rd ++ f.zero ++ f.imm ++ f.address

/-- The all-zero word, `BUBBLE_I` (R53). -/
def bubbleWord : InstrWord := 0#96

/-! ### Decoding -/

/-- Why a word is not well-formed (R56 checks 2 to 5). -/
inductive DecodeError where
  /-- Opcode code 13, 14 or 15 (R51, U1). -/
  | reservedOpcode
  /-- A field the format does not use, or bits 76:64, is not zero (R52, U6). -/
  | unusedFieldNotZero
  /-- SLL or SRL with `imm` outside `0 .. 31` (D6, U3). -/
  | shiftAmountOutOfRange
  /-- BEQ or J with a negative `address`: an unresolved label (D11, U6). -/
  | negativeTarget
  deriving DecidableEq, Repr

/-- Format R: `imm`, `address` and `zero` unused (R47). -/
def decodeR (f : Fields) (make : Reg → Reg → Reg → Instr) : Except DecodeError Instr :=
  if f.zero = 0#13 ∧ f.imm = 0#32 ∧ f.address = 0#32 then .ok (make f.rd f.rs f.rt) else .error .unusedFieldNotZero

/-- Formats I and M: `rd`, `address` and `zero` unused (R47). -/
def decodeIM (f : Fields) (make : Reg → Reg → Word → Instr) : Except DecodeError Instr :=
  if f.rd = 0#5 ∧ f.zero = 0#13 ∧ f.address = 0#32 then .ok (make f.rt f.rs f.imm) else .error .unusedFieldNotZero

/-- Format S: `rs`, `address` and `zero` unused, `0 <= imm <= 31` (R47, R56). -/
def decodeS (f : Fields) (make : Reg → Reg → Word → Instr) : Except DecodeError Instr :=
  if f.rs = 0#5 ∧ f.zero = 0#13 ∧ f.address = 0#32 then
    if shiftAmountOk f.imm then .ok (make f.rd f.rt f.imm) else .error .shiftAmountOutOfRange
  else .error .unusedFieldNotZero

/-- Format B: `rd`, `imm` and `zero` unused, `address >= 0` (R47, R56). -/
def decodeB (f : Fields) (make : Reg → Reg → Word → Instr) : Except DecodeError Instr :=
  if f.rd = 0#5 ∧ f.zero = 0#13 ∧ f.imm = 0#32 then
    if targetOk f.address then .ok (make f.rs f.rt f.address) else .error .negativeTarget
  else .error .unusedFieldNotZero

/-- Format J: all but `address` unused, `address >= 0` (R47, R56). -/
def decodeJ (f : Fields) (make : Word → Instr) : Except DecodeError Instr :=
  if f.rs = 0#5 ∧ f.rt = 0#5 ∧ f.rd = 0#5 ∧ f.zero = 0#13 ∧ f.imm = 0#32 then
    if targetOk f.address then .ok (make f.address) else .error .negativeTarget
  else .error .unusedFieldNotZero

/-- Format N: every other bit is zero (R47, R53). -/
def decodeN (f : Fields) : Except DecodeError Instr :=
  if f.rs = 0#5 ∧ f.rt = 0#5 ∧ f.rd = 0#5 ∧ f.zero = 0#13 ∧ f.imm = 0#32 ∧ f.address = 0#32 then .ok .nop
  else .error .unusedFieldNotZero

/-- The opcode map (R50); codes 13, 14 and 15 are reserved (R51). -/
def decodeFields (f : Fields) : Except DecodeError Instr :=
  match f.opcode.toNat with
  | 0 => decodeN f
  | 1 => decodeR f .add
  | 2 => decodeR f .sub
  | 3 => decodeR f .mul
  | 4 => decodeR f .and
  | 5 => decodeR f .or
  | 6 => decodeIM f .addi
  | 7 => decodeS f .sll
  | 8 => decodeS f .srl
  | 9 => decodeIM f .lw
  | 10 => decodeIM f .sw
  | 11 => decodeB f .beq
  | 12 => decodeJ f .j
  | _ => .error .reservedOpcode

/-- The decoder: total on every 96-bit word, and a word that is not well-formed is rejected with its reason (R56). -/
def decode (w : InstrWord) : Except DecodeError Instr := decodeFields (unpack w)

/-- The host's reading of a table word: the table numbers the 96-bit word with bit 0 its least significant bit, as R45 does. -/
def decodeTableWord (nbits w : Nat) : Option Instr :=
  match decode (BitVec.ofNat 96 (w % 2 ^ nbits)) with
  | .ok i => some i
  | .error _ => none

/-! ### Encoding -/

/-- The fields the assembler fills for an instruction; all others are 0 (R62). -/
def Instr.fields : Instr → Fields
  | .nop => ⟨0#4, 0#5, 0#5, 0#5, 0#13, 0#32, 0#32⟩
  | .add rd rs rt => ⟨1#4, rs, rt, rd, 0#13, 0#32, 0#32⟩
  | .sub rd rs rt => ⟨2#4, rs, rt, rd, 0#13, 0#32, 0#32⟩
  | .mul rd rs rt => ⟨3#4, rs, rt, rd, 0#13, 0#32, 0#32⟩
  | .and rd rs rt => ⟨4#4, rs, rt, rd, 0#13, 0#32, 0#32⟩
  | .or rd rs rt => ⟨5#4, rs, rt, rd, 0#13, 0#32, 0#32⟩
  | .addi rt rs imm => ⟨6#4, rs, rt, 0#5, 0#13, imm, 0#32⟩
  | .sll rd rt shamt => ⟨7#4, 0#5, rt, rd, 0#13, shamt, 0#32⟩
  | .srl rd rt shamt => ⟨8#4, 0#5, rt, rd, 0#13, shamt, 0#32⟩
  | .lw rt base offset => ⟨9#4, base, rt, 0#5, 0#13, offset, 0#32⟩
  | .sw rt base offset => ⟨10#4, base, rt, 0#5, 0#13, offset, 0#32⟩
  | .beq rs rt address => ⟨11#4, rs, rt, 0#5, 0#13, 0#32, address⟩
  | .j address => ⟨12#4, 0#5, 0#5, 0#5, 0#13, 0#32, address⟩

/-- The word of an instruction (R45, R62). -/
def encode (i : Instr) : InstrWord := pack i.fields

/-! ### The loader's check of an image -/

/-- Why the loader rejects an image (R56, R113). -/
inductive ImageError where
  /-- `PROG_LEN` is above `2^31 - 1` (R56 check 1). -/
  | programTooLong
  /-- The word at this index is not well-formed (R56 checks 2 to 5). -/
  | illFormedWord (index : Nat) (reason : DecodeError)
  deriving DecidableEq, Repr

/-- The first ill-formed word of a list, counted from `index`. -/
def checkWords (index : Nat) : List InstrWord → Except ImageError Unit
  | [] => .ok ()
  | w :: rest =>
    match decode w with
    | .ok _ => checkWords (index + 1) rest
    | .error e => .error (.illFormedWord index e)

/-- The five checks of R56 on a whole image. -/
def checkImage (image : List InstrWord) : Except ImageError Unit :=
  if image.length ≤ Config.maxProgLen then checkWords 0 image else .error .programTooLong

/-- A well-formed program image (R56). -/
def imageOk (image : List InstrWord) : Bool :=
  match checkImage image with
  | .ok _ => true
  | .error _ => false

end Sys2Proof
end

