-- ==== Sys2Proof/Machine/Params.lean ====
section
/-! DEFINITION. The values that the constant `State.reset` gives the two open parameters of a run. -/

namespace Sys2Proof.Machine

/-- DESIGN CHOICE (log 2), unsafe: the spec leaves `MEM_SIZE` open (D3); 64 is the least size for which every vector of
`spec/95_test_vectors.md` holds. No statement rests on it. -/
def resetMemSize : Nat := 64

/-- `SRL_FILL` at its default, `zero` (R6, R97, D5; log 3). -/
def resetSrlFill : SrlFill := .zero

end Sys2Proof.Machine
end

