-- ==== Sys2Proof/Machine/State.lean ====
section
/-! DEFINITION. The state of CORE (R29): registers, program counter, data memory, the four latches, the cycle count, and the
parameters of a run; the reasons a step can stop; the state after reset (R27). -/

namespace Sys2Proof.Machine

/-- `x[1] .. x[31]`, at positions 0 to 30; `x[0]` is the constant 0 and is not stored (R11, R29). -/
abbrev RegFile := Vector Word 31

/-- Data memory: pairs of word index and word, indices strictly rising, no listed word zero; an unlisted word is 0 (R27). The
memory is words and has no byte view (R34, log 1). -/
abbrev Memory := List (Nat × Word)

/-- Latch FD (R18). The instruction is held decoded (D7, log 5). -/
structure FDLatch where
  instr : Instr
  npc : Word
  deriving DecidableEq, Repr

/-- Latch DE (R19). -/
structure DELatch where
  instr : Instr
  rsVal : Word
  rtVal : Word
  imm : Word
  deriving DecidableEq, Repr

/-- Latch EM (R20). -/
structure EMLatch where
  instr : Instr
  aluResult : Word
  rtVal : Word
  deriving DecidableEq, Repr

/-- Latch MW (R21). -/
structure MWLatch where
  instr : Instr
  aluResult : Word
  rtVal : Word
  memData : Word
  deriving DecidableEq, Repr

/-- The canonical empty latch (R26). -/
def FDLatch.empty : FDLatch := ⟨.nop, 0#32⟩
/-- The canonical empty latch (R26). -/
def DELatch.empty : DELatch := ⟨.nop, 0#32, 0#32, 0#32⟩
/-- The canonical empty latch (R26). -/
def EMLatch.empty : EMLatch := ⟨.nop, 0#32, 0#32⟩
/-- The canonical empty latch (R26). -/
def MWLatch.empty : MWLatch := ⟨.nop, 0#32, 0#32, 0#32⟩

/-- The state of CORE: the mutable state of R29, then the parameters of a run, which no cycle changes (R6, R16, R29). -/
structure State where
  regs : RegFile
  pc : Word
  mem : Memory
  fd : FDLatch
  de : DELatch
  em : EMLatch
  mw : MWLatch
  cycles : Nat
  prog : List InstrWord
  memSize : Nat
  srlFill : SrlFill
  deriving DecidableEq, Repr

/-- Faults: none. CORE raises no exception and no run-time condition stops it (R110, R111, R116), so the type has no
constructor and nothing raises one (log 11). -/
inductive Fault where
  deriving DecidableEq, Repr

/-- The reasons the model states no next state. -/
inductive Refusal where
  /-- An instruction without a meaning: raised by an arm of `exec` only, and by none here. Safe. -/
  | notModelled (mnemonic : String)
  /-- Raised by `step` on a state whose program image the loader rejects (R56, R113: "the model *refuses*"). Safe. -/
  | illFormedImage (reason : ImageError)
  /-- Raised by Fetch, inside `exec`, when the word at `pc` is not well-formed: `exec` asked of a state whose image the loader
  rejects (R113, U1, U3, U6). `step` checks the image first and never raises it. Safe. -/
  | illFormedWord (reason : DecodeError)
  deriving DecidableEq, Repr

/-- The machine right after reset (R27): registers, memory, `pc` and cycle count 0, the four latches empty. No program is
loaded (log 4); `MEM_SIZE` and `SRL_FILL` stand at the values of Machine/Params.lean (log 2, log 3). -/
def State.reset : State where
  regs := Vector.replicate 31 0#32
  pc := 0#32
  mem := []
  fd := FDLatch.empty
  de := DELatch.empty
  em := EMLatch.empty
  mw := MWLatch.empty
  cycles := 0
  prog := []
  memSize := resetMemSize
  srlFill := resetSrlFill

end Sys2Proof.Machine
end

