-- ==== Sys2Proof/Machine/Ops.lean ====
section
/-! DEFINITION. The named operations on registers, data memory and the program store. There is no operation that takes an
exception or returns from one: CORE has none (R110, R116, R117). -/

namespace Sys2Proof.Machine

/-! ### Registers -/

/-- The position of register `r != 0` in the register file. -/
def slot (r : Reg) : Fin 31 := ⟨r.toNat - 1, by have := r.isLt; omega⟩

/-- `x[i]`: register 0 reads as 0 (R10, R11). -/
def RegFile.read (x : RegFile) (r : Reg) : Word := if r = 0#5 then 0#32 else x[slot r]

/-- `x[i] <- v`: a write with `i = 0` has no effect (R8, R11). -/
def RegFile.write (x : RegFile) (r : Reg) (v : Word) : RegFile :=
  if r = 0#5 then x else x.set (slot r) v

/-- `x[i]` of a state. -/
def State.reg (s : State) (r : Reg) : Word := RegFile.read s.regs r

/-! ### Data memory -/

/-- Word `k` of the list; an unlisted word is 0 (R27). -/
def Memory.read : Memory → Nat → Word
  | [], _ => 0#32
  | (a, v) :: rest, k => if a = k then v else Memory.read rest k

/-- A cell list with word `k` at its front, unless the word is 0. -/
def Memory.cons (k : Nat) (v : Word) (rest : Memory) : Memory := if v = 0#32 then rest else (k, v) :: rest

/-- Word `k` becomes `v`, the canonical form kept. -/
def Memory.write : Memory → Nat → Word → Memory
  | [], k, v => Memory.cons k v []
  | (a, w) :: rest, k, v =>
    if k < a then Memory.cons k v ((a, w) :: rest)
    else if k = a then Memory.cons k v rest
    else (a, w) :: Memory.write rest k v

/-- Every index of the list is above `k`. -/
def Memory.above (k : Nat) : Memory → Bool
  | [] => true
  | (a, _) :: rest => decide (k < a) && Memory.above k rest

/-- The canonical form: indices strictly rising, no listed word zero. -/
def Memory.wf : Memory → Bool
  | [] => true
  | (a, v) :: rest => decide (v ≠ 0#32) && Memory.above a rest && Memory.wf rest

/-- `widx(a)`: signed division by 4 rounded toward zero (R31). -/
def widx (a : Word) : Int := a.toInt.tdiv Config.wordSize

/-- The word of data memory that byte address `a` names, if it is in range: `0 <= widx(a) < MEM_SIZE` (R32, R33). The low two
bits of the address are dropped, no alignment is checked (R35). -/
def place (memSize : Nat) (a : Word) : Option Nat :=
  if 0 ≤ widx a ∧ widx a < memSize then some (widx a).toNat else none

/-- `MemRead(a, 4)`: 0 out of range (R32). -/
def memRead (memSize : Nat) (m : Memory) (a : Word) : Word :=
  match place memSize a with
  | some k => Memory.read m k
  | none => 0#32

/-- `MemWrite(a, 4, v)`: dropped out of range (R33). -/
def memWrite (memSize : Nat) (m : Memory) (a v : Word) : Memory :=
  match place memSize a with
  | some k => Memory.write m k v
  | none => m

/-- Data-memory word `k` of a state, `0 <= k < MEM_SIZE` (R15). -/
def State.word (s : State) (k : Nat) : Word := Memory.read s.mem k

/-! ### The program store -/

/-- `0 <= pc < PROG_LEN` (R14, R44). -/
def pcInBounds (prog : List InstrWord) (pc : Word) : Bool :=
  decide (0 ≤ pc.toInt ∧ pc.toInt < prog.length)

/-- `Prog[pc]` when `pc` is inside the program (R44). -/
def wordAt (prog : List InstrWord) (pc : Word) : Option InstrWord :=
  if pcInBounds prog pc then prog[pc.toNat]? else none

end Sys2Proof.Machine
end

