-- ==== Sys2Proof/Machine/Operands.lean ====
section
/-! DEFINITION. The operand shapes (R47): which registers an instruction reads in Decode, which one it writes in Write-Back,
what its `imm` field holds. There is one addressing mode, base plus offset (R88). -/

namespace Sys2Proof.Machine

/-- The `rs` source read in Decode (R47, R76). -/
def rsSource : Instr → Option Reg
  | .add _ rs _ | .sub _ rs _ | .mul _ rs _ | .and _ rs _ | .or _ rs _ => some rs
  | .addi _ rs _ => some rs
  | .lw _ base _ => some base
  | .sw _ base _ => some base
  | .beq rs _ _ => some rs
  | .sll _ _ _ | .srl _ _ _ | .j _ | .nop => none

/-- The `rt` source read in Decode (R47, R76). -/
def rtSource : Instr → Option Reg
  | .add _ _ rt | .sub _ _ rt | .mul _ _ rt | .and _ _ rt | .or _ _ rt => some rt
  | .sll _ rt _ | .srl _ rt _ => some rt
  | .sw rt _ _ => some rt
  | .beq _ rt _ => some rt
  | .addi _ _ _ | .lw _ _ _ | .j _ | .nop => none

/-- The register written in Write-Back (R47, R73). -/
def dest : Instr → Option Reg
  | .add rd _ _ | .sub rd _ _ | .mul rd _ _ | .and rd _ _ | .or rd _ _ => some rd
  | .sll rd _ _ | .srl rd _ _ => some rd
  | .addi rt _ _ => some rt
  | .lw rt _ _ => some rt
  | .sw _ _ _ | .beq _ _ _ | .j _ | .nop => none

/-- The `imm` field of the word: 0 where the format does not use it (R47, R52). -/
def immField : Instr → Word
  | .addi _ _ imm => imm
  | .sll _ _ shamt => shamt
  | .srl _ _ shamt => shamt
  | .lw _ _ offset => offset
  | .sw _ _ offset => offset
  | .add _ _ _ | .sub _ _ _ | .mul _ _ _ | .and _ _ _ | .or _ _ _ | .beq _ _ _ | .j _ | .nop => 0#32

/-- The value Decode latches for a source: the register, or 0 where the shape has no such source (R76, D14). -/
def sourceValue (x : RegFile) : Option Reg → Word
  | some r => RegFile.read x r
  | none => 0#32

/-- `ea = s32(base + offset)`, the effective address (R88). -/
def effectiveAddress (base offset : Word) : Word := base + offset

/-- The shift amount, `imm[4:0]` (R48). -/
def shiftAmount (imm : Word) : Nat := (imm.extractLsb' 0 5).toNat

end Sys2Proof.Machine
end

