-- ==== Sys2Proof/Machine/Flags.lean ====
section
/-! DEFINITION. Flags: CORE has no status flag, condition code or predicate (R23), and no instruction computes one. The one
condition of the machine is the branch decision, a pair of wires that live inside one cycle (R22). -/

namespace Sys2Proof.Machine

/-- The wires `taken` and `target`: `none` is not taken, `some t` is taken with target `t` (R22). -/
abbrev Branch := Option Word

/-- BEQ's decision: equality of the two 32-bit patterns (R100). -/
def beqBranch (a b address : Word) : Branch := if a = b then some address else none

/-- The branch decision of the cycle in which Execute handles `i` with the operands of `l` (R70 step 3, R75): BEQ and J decide, no
other instruction does. Claims name the decision by this function; the meanings of BEQ and J compute it themselves. -/
def branchOf (i : Instr) (l : DELatch) : Branch :=
  match i with
  | .beq _ _ address => beqBranch l.rsVal l.rtVal address
  | .j address => some address
  | .nop | .add _ _ _ | .sub _ _ _ | .mul _ _ _ | .and _ _ _ | .or _ _ _ => none
  | .addi _ _ _ | .sll _ _ _ | .srl _ _ _ | .lw _ _ _ | .sw _ _ _ => none

/-- The branch decision of the coming cycle of a state: at most one, that of the instruction in DE (R75). -/
def branchNow (s : State) : Branch := branchOf s.de.instr s.de

end Sys2Proof.Machine
end

