-- ==== Sys2Proof/Machine/Pipeline.lean ====
section
/-! DEFINITION. One clock cycle (R70): the stages Write-Back, Memory, Decode, Fetch, the Flush, and the cycle boundary, shared by
all instructions. What Execute computes is the instruction's own meaning: it hands `clock` the ALU result and the branch
decision. -/

namespace Sys2Proof.Machine

/-! ### Step 1, Write-Back (R73) -/

/-- The value Write-Back commits: the loaded word for LW, the ALU result otherwise (R73). -/
def committed (l : MWLatch) : Word :=
  match l.instr with
  | .lw _ _ _ => l.memData
  | .add _ _ _ | .sub _ _ _ | .mul _ _ _ | .and _ _ _ | .or _ _ _ => l.aluResult
  | .addi _ _ _ | .sll _ _ _ | .srl _ _ _ => l.aluResult
  | .sw _ _ _ | .beq _ _ _ | .j _ | .nop => l.aluResult

/-- The register file after Write-Back; SW, BEQ, J and bubbles commit nothing (R73). -/
def writeBack (l : MWLatch) (x : RegFile) : RegFile :=
  match dest l.instr with
  | some r => RegFile.write x r (committed l)
  | none => x

/-! ### Step 2, Memory (R74) -/

/-- The word LW reads; 0 for every other instruction (R74, D14). -/
def loadedWord (memSize : Nat) (m : Memory) (l : EMLatch) : Word :=
  match l.instr with
  | .lw _ _ _ => memRead memSize m l.aluResult
  | .nop | .add _ _ _ | .sub _ _ _ | .mul _ _ _ | .and _ _ _ | .or _ _ _ => 0#32
  | .addi _ _ _ | .sll _ _ _ | .srl _ _ _ | .sw _ _ _ | .beq _ _ _ | .j _ => 0#32

/-- Data memory after the Memory stage: only SW writes it (R74). -/
def storeStage (memSize : Nat) (m : Memory) (l : EMLatch) : Memory :=
  match l.instr with
  | .sw _ _ _ => memWrite memSize m l.aluResult l.rtVal
  | .nop | .add _ _ _ | .sub _ _ _ | .mul _ _ _ | .and _ _ _ | .or _ _ _ => m
  | .addi _ _ _ | .sll _ _ _ | .srl _ _ _ | .lw _ _ _ | .beq _ _ _ | .j _ => m

/-- MW' (R74). -/
def memoryStage (memSize : Nat) (m : Memory) (l : EMLatch) : MWLatch where
  instr := l.instr
  aluResult := l.aluResult
  rtVal := l.rtVal
  memData := loadedWord memSize m l

/-! ### Step 4, Decode (R76) -/

/-- DE' of an instruction, its operands read from the register file as Write-Back left it in the same cycle (R76). -/
def decodeStage (x : RegFile) (i : Instr) : DELatch where
  instr := i
  rsVal := sourceValue x (rsSource i)
  rtVal := sourceValue x (rtSource i)
  imm := immField i

/-! ### Step 5, Fetch (R77) -/

/-- What Fetch leaves: FD' and the advanced `pc`. -/
structure Fetched where
  latch : FDLatch
  pc : Word
  deriving DecidableEq, Repr

/-- Inside the program: the word at `pc`, with `pc + 1`; outside: a bubble, `pc` unchanged (R77). An ill-formed word has no
meaning (R113). -/
def fetchStage (prog : List InstrWord) (pc : Word) : Except DecodeError Fetched :=
  match wordAt prog pc with
  | none => .ok ⟨FDLatch.empty, pc⟩
  | some w =>
    match decode w with
    | .ok i => .ok ⟨⟨i, pc + 1#32⟩, pc + 1#32⟩
    | .error e => .error e

/-! ### Step 6, Flush (R78), and the whole cycle (R70) -/

/-- A taken branch redirects `pc` and replaces FD' and DE' by bubbles; EM' and MW' are kept (R78). -/
def flush (branch : Branch) (s : State) : State :=
  match branch with
  | none => s
  | some target => { s with pc := target, fd := FDLatch.empty, de := DELatch.empty }

/-- The state after steps 1 to 5: every stage has read the latch upstream of it as it stood at the start of the cycle (R71).
`i` is the instruction in Execute, `result` its ALU result. -/
def advance (i : Instr) (result : Word) (f : Fetched) (s : State) : State :=
  { s with
    regs := writeBack s.mw s.regs
    mem := storeStage s.memSize s.mem s.em
    mw := memoryStage s.memSize s.mem s.em
    em := ⟨i, result, s.de.rtVal⟩
    de := decodeStage (writeBack s.mw s.regs) s.fd.instr
    fd := f.latch
    pc := f.pc
    cycles := s.cycles + 1 }

/-- One clock cycle in which Execute finishes instruction `i` with the given ALU result and branch decision (R70). -/
def clock (i : Instr) (result : Word) (branch : Branch) (s : State) : Host.Outcome State Fault Refusal :=
  match fetchStage s.prog s.pc with
  | .ok f => .next (flush branch (advance i result f s))
  | .error e => .refused (.illFormedWord e)

/-! ### Halt (R136) -/

/-- `pc` is outside the program and no latch holds a valid instruction (R136). -/
def halted (s : State) : Bool :=
  !pcInBounds s.prog s.pc && !s.fd.instr.valid && !s.de.instr.valid && !s.em.instr.valid && !s.mw.instr.valid

end Sys2Proof.Machine
end

