-- ==== Sys2Proof/Machine/Arith.lean ====
section
/-! DEFINITION. ADD, SUB, MUL, AND, OR (R89 to R94). `exec` of an instruction is the clock cycle in which it is in Execute (log 6);
the operands are the values Decode latched in DE (R75). Word arithmetic wraps modulo 2^32 and records nothing (R89). -/

namespace Sys2Proof.Machine

/-- R90. -/
def execAdd (rd rs rt : Reg) (s : State) : Host.Outcome State Fault Refusal :=
  clock (.add rd rs rt) (s.de.rsVal + s.de.rtVal) none s

/-- R91: the minuend is `rs`. -/
def execSub (rd rs rt : Reg) (s : State) : Host.Outcome State Fault Refusal :=
  clock (.sub rd rs rt) (s.de.rsVal - s.de.rtVal) none s

/-- R92: the low 32 bits of the product. -/
def execMul (rd rs rt : Reg) (s : State) : Host.Outcome State Fault Refusal :=
  clock (.mul rd rs rt) (s.de.rsVal * s.de.rtVal) none s

/-- R93. -/
def execAnd (rd rs rt : Reg) (s : State) : Host.Outcome State Fault Refusal :=
  clock (.and rd rs rt) (s.de.rsVal &&& s.de.rtVal) none s

/-- R94. -/
def execOr (rd rs rt : Reg) (s : State) : Host.Outcome State Fault Refusal :=
  clock (.or rd rs rt) (s.de.rsVal ||| s.de.rtVal) none s

end Sys2Proof.Machine
end

