-- ==== Sys2Proof/Machine/Control.lean ====
section
/-! DEFINITION. BEQ, J (R85 to R87, R100, R101). The target is the absolute instruction index in the word (R48); the ALU result
is 0 (D14). -/

namespace Sys2Proof.Machine

/-- R100. -/
def execBeq (rs rt : Reg) (address : Word) (s : State) : Host.Outcome State Fault Refusal :=
  clock (.beq rs rt address) 0#32 (beqBranch s.de.rsVal s.de.rtVal address) s

/-- R101. -/
def execJ (address : Word) (s : State) : Host.Outcome State Fault Refusal :=
  clock (.j address) 0#32 (some address) s

end Sys2Proof.Machine
end

