-- ==== Sys2Proof/Machine/Immediate.lean ====
section
/-! DEFINITION. ADDI (R95). -/

namespace Sys2Proof.Machine

/-- R95: the whole 32-bit immediate, latched in DE, is the second addend. -/
def execAddi (rt rs : Reg) (imm : Word) (s : State) : Host.Outcome State Fault Refusal :=
  clock (.addi rt rs imm) (s.de.rsVal + s.de.imm) none s

end Sys2Proof.Machine
end

