-- ==== Sys2Proof/Machine/LoadStore.lean ====
section
/-! DEFINITION. LW, SW (R98, R99). Execute computes the effective address (R88); the access is made by the Memory stage one cycle
later (`loadedWord`, `storeStage`, R74) and the loaded word is committed by Write-Back two cycles later (`writeBack`, R73). -/

namespace Sys2Proof.Machine

/-- R98. -/
def execLw (rt base : Reg) (offset : Word) (s : State) : Host.Outcome State Fault Refusal :=
  clock (.lw rt base offset) (effectiveAddress s.de.rsVal s.de.imm) none s

/-- R99: the data, `DE.rtVal`, is carried into EM by `clock` like every `rt` value. -/
def execSw (rt base : Reg) (offset : Word) (s : State) : Host.Outcome State Fault Refusal :=
  clock (.sw rt base offset) (effectiveAddress s.de.rsVal s.de.imm) none s

end Sys2Proof.Machine
end

