-- ==== Sys2Proof/Machine/Nop.lean ====
section
/-! DEFINITION. NOP and the bubble (R102, R103): Execute computes 0 and decides no branch. -/

namespace Sys2Proof.Machine

/-- R102. -/
def execNop (s : State) : Host.Outcome State Fault Refusal := clock .nop 0#32 none s

end Sys2Proof.Machine
end

