-- ==== Sys2Proof/Machine/Shift.lean ====
section
/-! DEFINITION. SLL, SRL (R96, R97). The amount is `imm[4:0]` (R48). -/

namespace Sys2Proof.Machine

/-- `a >> n`: zeros enter at bit 31 (R97), or copies of bit 31 where the run's `SRL_FILL` is `sign` (D5, log 3). -/
def shiftRight (fill : SrlFill) (a : Word) (n : Nat) : Word :=
  match fill with
  | .zero => a >>> n
  | .sign => a.sshiftRight n

/-- R96: zeros enter at bit 0. -/
def execSll (rd rt : Reg) (shamt : Word) (s : State) : Host.Outcome State Fault Refusal :=
  clock (.sll rd rt shamt) (s.de.rtVal <<< shiftAmount s.de.imm) none s

/-- R97. -/
def execSrl (rd rt : Reg) (shamt : Word) (s : State) : Host.Outcome State Fault Refusal :=
  clock (.srl rd rt shamt) (shiftRight s.srlFill s.de.rtVal (shiftAmount s.de.imm)) none s

end Sys2Proof.Machine
end

