-- ==== Sys2Proof/Machine/Loader.lean ====
section
/-! DEFINITION. The host's side before a run: loading a checked image (R56, R113, R131), reset (R27, R130), and the placing of one
word where the next cycle executes it. -/

namespace Sys2Proof.Machine

/-- Why a run does not start (R113, R131). -/
inductive LoadError where
  | image (reason : ImageError)
  /-- `MEM_SIZE` is not positive (D3). -/
  | memSizeNotPositive
  deriving DecidableEq, Repr

/-- Reset of a machine whose image and parameters are in place: everything of R27, the image and the parameters kept. -/
def State.resetCore (s : State) : State :=
  { State.reset with prog := s.prog, memSize := s.memSize, srlFill := s.srlFill }

/-- The start of a run: the image checked, `MEM_SIZE` and `SRL_FILL` fixed, reset released (R125, R131). -/
def load (image : List InstrWord) (memSize : Nat) (srlFill : SrlFill) : Except LoadError State :=
  match checkImage image with
  | .error e => .error (.image e)
  | .ok _ =>
    if memSize = 0 then .error .memSizeNotPositive
    else .ok { State.reset with prog := image, memSize := memSize, srlFill := srlFill }

/-- The image with `w` at index `pc`, and `pc`; where `pc` is outside the program, `w` is appended and `pc` becomes its index. -/
def placeWord (prog : List InstrWord) (pc : Word) (w : InstrWord) : List InstrWord × Word :=
  if pcInBounds prog pc then (prog.set pc.toNat w, pc) else (prog ++ [w], BitVec.ofNat 32 prog.length)

/-- The DE latch as Decode would leave it for the word, from the registers of the state; the canonical empty latch for a word
that does not decode. -/
def latchWord (x : RegFile) (w : InstrWord) : DELatch :=
  match decode w with
  | .ok i => decodeStage x i
  | .error _ => DELatch.empty

/-- `w` placed in the program store at `pc` and latched in DE with its operands read, so that the very next cycle executes it
(log 13). -/
def State.withWord (s : State) (w : InstrWord) : State :=
  { s with
    prog := (placeWord s.prog s.pc w).1
    pc := (placeWord s.prog s.pc w).2
    de := latchWord s.regs w }

end Sys2Proof.Machine
end

