-- ==== Sys2Proof/Machine/Step.lean ====
section
/-! DEFINITION. The step: one clock cycle of a machine that has not halted (R70, R136), on a well-formed image (R56, R113). -/

namespace Sys2Proof.Machine

/-- One step. An image the loader rejects is refused (R113). A halted machine stays as it is (D17, R120, R123). Otherwise one cycle
passes, in which Execute handles the instruction in latch DE. -/
def step (s : State) : Host.Outcome State Fault Refusal :=
  match checkImage s.prog with
  | .error e => .refused (.illFormedImage e)
  | .ok _ => if halted s then .next s else exec s.de.instr s

/-- The state with the word placed so that the very next step executes it (log 13). -/
def State.withFetchWord (s : State) (nbits w : Nat) : State :=
  State.withWord s (BitVec.ofNat 96 (w % 2 ^ nbits))

end Sys2Proof.Machine
end

