-- ==== Sys2Proof/Machine/Assembler.lean ====
section
/-! DEFINITION. The Assembler Front-End (R57 to R68). It is software that runs before the hardware starts and is out of the
hardware's scope (R5); it is written here because its grammar is given by numbered rules and every example of the spec is written
in it. `step` does not use it. A line is a list of characters. -/

namespace Sys2Proof.Machine

abbrev Line := List Char

/-- The assembler's fatal errors (R67), and two shapes the spec names no outcome for, which are fatal too (log 16). -/
inductive AsmError where
  /-- An unparseable numeric field, or one outside 32 signed bits (R63). -/
  | badNumber
  /-- A `$`-token that is neither a name nor a number in `0 .. 31` (R61). -/
  | badRegister
  /-- R60. -/
  | unknownMnemonic
  /-- R64, R67. -/
  | unresolvedLabel
  /-- R63, D6. -/
  | shiftOutOfRange
  /-- D21. -/
  | duplicateLabel
  /-- DESIGN CHOICE (log 16): a wrong number of operands, or a memory operand that is not `offset(base)`. -/
  | badOperands
  /-- R56 check 1. -/
  | programTooLong
  deriving DecidableEq, Repr

/-! ### Lines, tokens (R58, R59) -/

/-- DESIGN CHOICE (log 16): the characters of R59's whitespace. -/
def isBlank (c : Char) : Bool := c == ' ' || c == '\t' || c == '\r' || c == '\n'

/-- The line without its comment (R58). -/
def stripComment (l : Line) : Line := l.takeWhile fun c => c != '#'

def trimEnd (l : Line) : Line := (l.reverse.dropWhile isBlank).reverse

def trim (l : Line) : Line := trimEnd (l.dropWhile isBlank)

/-- The line cut at its first `c`, if it has one. -/
def cutAt (c : Char) : Line → Option (Line × Line)
  | [] => none
  | d :: rest =>
    if d = c then some ([], rest)
    else
      match cutAt c rest with
      | some (before, after) => some (d :: before, after)
      | none => none

/-- A token ends at a blank or a comma (R59, D19). `current` holds the open token, last character first.
DESIGN CHOICE (log 16), R59, R65 and R103 leave it open: an empty token, which a leading, doubled or trailing comma would make, is
dropped; it is neither an operand nor the empty opcode of R65. So `, ADD $1,$2,$3` is an ADD, `ADD $1,,$2,$3` is accepted, and the
lines with an empty opcode token are those of commas and blanks alone. -/
def tokensFrom (current : List Char) : Line → List Line
  | [] => if current = [] then [] else [current.reverse]
  | c :: rest =>
    if isBlank c || c == ',' then
      if current = [] then tokensFrom [] rest else current.reverse :: tokensFrom [] rest
    else tokensFrom (c :: current) rest

def tokens (l : Line) : List Line := tokensFrom [] l

/-! ### Numbers and registers (R61, R63) -/

def digitValue (c : Char) : Option Nat :=
  if '0'.toNat ≤ c.toNat ∧ c.toNat ≤ '9'.toNat then some (c.toNat - '0'.toNat) else none

def digitsFrom (acc : Nat) : Line → Option Nat
  | [] => some acc
  | c :: rest =>
    match digitValue c with
    | some d => digitsFrom (acc * 10 + d) rest
    | none => none

/-- An unsigned decimal number: one digit or more; leading zeros are admitted (DESIGN CHOICE, log 16). -/
def parseDigits (l : Line) : Option Nat := if l = [] then none else digitsFrom 0 l

/-- A decimal integer with an optional leading `-` that fits in 32 signed bits (R63). -/
def parseNumber (l : Line) : Except AsmError Word :=
  match l with
  | '-' :: rest =>
    match parseDigits rest with
    | some n => if n ≤ 2147483648 then .ok (BitVec.ofInt 32 (-(n : Int))) else .error .badNumber
    | none => .error .badNumber
  | _ =>
    match parseDigits l with
    | some n => if n ≤ 2147483647 then .ok (BitVec.ofNat 32 n) else .error .badNumber
    | none => .error .badNumber

/-- The symbolic names, without the `$` (R12, R61, D20). -/
def regNames : List (Line × Reg) :=
  [(['z', 'e', 'r', 'o'], 0),
   (['t', '0'], 8), (['t', '1'], 9), (['t', '2'], 10), (['t', '3'], 11),
   (['t', '4'], 12), (['t', '5'], 13), (['t', '6'], 14), (['t', '7'], 15),
   (['s', '0'], 16), (['s', '1'], 17), (['s', '2'], 18), (['s', '3'], 19), (['s', '4'], 20), (['s', '5'], 21)]

/-- A register token: a name, `$` and a number in `0 .. 31`, or, without `$`, register 0 (R61). -/
def parseReg (l : Line) : Except AsmError Reg :=
  match l with
  | '$' :: name =>
    match regNames.lookup name with
    | some r => .ok r
    | none =>
      match parseDigits name with
      | some n => if n ≤ 31 then .ok (BitVec.ofNat 5 n) else .error .badRegister
      | none => .error .badRegister
  | _ => .ok 0#5

/-! ### Operand shapes (R62) -/

abbrev Labels := List (Line × Nat)

def asmR (make : Reg → Reg → Reg → Instr) : List Line → Except AsmError Instr
  | [d, a, b] =>
    match parseReg d, parseReg a, parseReg b with
    | .ok rd, .ok rs, .ok rt => .ok (make rd rs rt)
    | _, _, _ => .error .badRegister
  | _ => .error .badOperands

def asmI (make : Reg → Reg → Word → Instr) : List Line → Except AsmError Instr
  | [d, a, n] =>
    match parseReg d, parseReg a, parseNumber n with
    | .ok rt, .ok rs, .ok imm => .ok (make rt rs imm)
    | .ok _, .ok _, .error e => .error e
    | _, _, _ => .error .badRegister
  | _ => .error .badOperands

/-- A shift amount lies in `0 .. 31` (R63, D6). -/
def asmS (make : Reg → Reg → Word → Instr) (ops : List Line) : Except AsmError Instr :=
  match ops with
  | [d, a, n] =>
    match parseReg d, parseReg a, parseNumber n with
    | .ok rd, .ok rt, .ok shamt => if shiftAmountOk shamt then .ok (make rd rt shamt) else .error .shiftOutOfRange
    | .ok _, .ok _, .error e => .error e
    | _, _, _ => .error .badRegister
  | _ => .error .badOperands

/-- `offset(base)`: an integer before `(`, a register between the parentheses (R62). DESIGN CHOICE (log 16): the operand is one token,
so a blank or a comma inside it makes it two, and nothing may follow the `)`. -/
def parseMemOperand (l : Line) : Except AsmError (Word × Reg) :=
  match cutAt '(' l with
  | none => .error .badOperands
  | some (offset, rest) =>
    match cutAt ')' rest with
    | some (base, []) =>
      match parseNumber offset, parseReg base with
      | .ok n, .ok r => .ok (n, r)
      | .error e, _ => .error e
      | _, .error e => .error e
    | _ => .error .badOperands

def asmM (make : Reg → Reg → Word → Instr) : List Line → Except AsmError Instr
  | [t, m] =>
    match parseReg t, parseMemOperand m with
    | .ok rt, .ok (offset, base) => .ok (make rt base offset)
    | .ok _, .error e => .error e
    | .error e, _ => .error e
  | _ => .error .badOperands

/-- A label's value; a label that no line declares is fatal (R64, R67, D11). -/
def resolve (labels : Labels) (l : Line) : Except AsmError Word :=
  match labels.lookup l with
  | some n => .ok (BitVec.ofNat 32 n)
  | none => .error .unresolvedLabel

def asmB (labels : Labels) (ops : List Line) : Except AsmError Instr :=
  match ops with
  | [a, b, l] =>
    match parseReg a, parseReg b, resolve labels l with
    | .ok rs, .ok rt, .ok address => .ok (.beq rs rt address)
    | .ok _, .ok _, .error e => .error e
    | _, _, _ => .error .badRegister
  | _ => .error .badOperands

def asmJ (labels : Labels) (ops : List Line) : Except AsmError Instr :=
  match ops with
  | [l] =>
    match resolve labels l with
    | .ok address => .ok (.j address)
    | .error e => .error e
  | _ => .error .badOperands

def asmN (ops : List Line) : Except AsmError Instr :=
  match ops with
  | [] => .ok .nop
  | _ :: _ => .error .badOperands

/-- What follows the mnemonic of a line, by mnemonic; case-sensitive, a fixed set (R60). There are no pseudo-instructions (R66). -/
def mnemonics (labels : Labels) : List (Line × (List Line → Except AsmError Instr)) :=
  [(['A', 'D', 'D'], asmR .add), (['S', 'U', 'B'], asmR .sub), (['M', 'U', 'L'], asmR .mul),
   (['A', 'N', 'D'], asmR .and), (['O', 'R'], asmR .or), (['A', 'D', 'D', 'I'], asmI .addi),
   (['S', 'L', 'L'], asmS .sll), (['S', 'R', 'L'], asmS .srl), (['L', 'W'], asmM .lw), (['S', 'W'], asmM .sw),
   (['B', 'E', 'Q'], asmB labels), (['J'], asmJ labels), (['N', 'O', 'P'], asmN)]

/-- One instruction line (R62). A line with no token becomes NOP: it is this model's line with an empty opcode token (R65, R103;
that no other line has one is the DESIGN CHOICE of `tokensFrom`, log 16). -/
def asmLine (labels : Labels) (body : Line) : Except AsmError Instr :=
  match tokens body with
  | [] => .ok .nop
  | m :: ops =>
    match (mnemonics labels).lookup m with
    | some parse => parse ops
    | none => .error .unknownMnemonic

/-! ### The two passes (R64) -/

/-- First pass (R64): labels bound to the index of the following instruction line, and the instruction lines, empty lines dropped.
DESIGN CHOICE (log 16): only a line's first colon ends a label; a label may be the empty string. -/
def firstPass (labels : Labels) (bodies : List Line) : List Line → Except AsmError (Labels × List Line)
  | [] => .ok (labels, bodies)
  | raw :: rest =>
    match cutAt ':' (trim (stripComment raw)) with
    | some (name, body) =>
      if (labels.lookup (trimEnd name)).isSome then .error .duplicateLabel
      else
        firstPass ((trimEnd name, bodies.length) :: labels)
          (if trim body = [] then bodies else bodies ++ [trim body]) rest
    | none =>
      firstPass labels
        (if trim (stripComment raw) = [] then bodies else bodies ++ [trim (stripComment raw)]) rest

/-- Second pass. -/
def asmLines (labels : Labels) : List Line → Except AsmError (List Instr)
  | [] => .ok []
  | body :: rest =>
    match asmLine labels body with
    | .error e => .error e
    | .ok i =>
      match asmLines labels rest with
      | .ok is => .ok (i :: is)
      | .error e => .error e

/-- The program image of a text, or the reason it is rejected (R57, R67). -/
def assemble (text : List Line) : Except AsmError (List InstrWord) :=
  match firstPass [] [] text with
  | .error e => .error e
  | .ok (labels, bodies) =>
    if bodies.length ≤ Config.maxProgLen then
      match asmLines labels bodies with
      | .ok is => .ok (is.map encode)
      | .error e => .error e
    else .error .programTooLong

end Sys2Proof.Machine
end

