-- ==== Sys2Proof/Machine/Observe.lean ====
section
/-! DEFINITION. The observation interface: what the host reads between cycles and at the end of a run (R83, R120, R122). Nothing
here changes a state. What the reporter prints is out of scope (R5). -/

namespace Sys2Proof.Machine

/-- The whole register file, `x[0]` to `x[31]` (R122). -/
def State.regFile (s : State) : List Word := (List.range Config.regCount).map fun n => s.reg (BitVec.ofNat 5 n)

/-- The first `n` words of memory, or all of it if it is shorter (R122: "whole memory (or a bounded window)"). -/
def State.memWindow (s : State) (n : Nat) : List Word := (List.range (min n s.memSize)).map s.word

/-- What the reporter is given: the CPU state and the four latches, their instructions as the words they carry (R52, R122). -/
structure Report where
  regs : List Word
  memory : List Word
  pc : Word
  fdWord : InstrWord
  fdNpc : Word
  deWord : InstrWord
  deValues : Word × Word × Word
  emWord : InstrWord
  emValues : Word × Word
  mwWord : InstrWord
  mwValues : Word × Word × Word
  deriving DecidableEq, Repr

/-- The report of a state, with a memory window of `n` words. -/
def State.report (s : State) (n : Nat) : Report where
  regs := s.regFile
  memory := s.memWindow n
  pc := s.pc
  fdWord := encode s.fd.instr
  fdNpc := s.fd.npc
  deWord := encode s.de.instr
  deValues := (s.de.rsVal, s.de.rtVal, s.de.imm)
  emWord := encode s.em.instr
  emValues := (s.em.aluResult, s.em.rtVal)
  mwWord := encode s.mw.instr
  mwValues := (s.mw.aluResult, s.mw.rtVal, s.mw.memData)

/-- The termination outputs: registers, memory, total cycle count (R120). They are the result of a run at a halted state. -/
structure Outputs where
  regs : List Word
  memory : List Word
  cycles : Nat
  deriving DecidableEq, Repr

/-- The outputs of a halted machine; a running machine has none yet (R125, R136). -/
def State.outputs (s : State) : Option Outputs :=
  if halted s then some ⟨s.regFile, s.memWindow s.memSize, s.cycles⟩ else none

end Sys2Proof.Machine
end

