-- ==== Sys2Proof/Machine/Run.lean ====
section
/-! DEFINITION. A run: steps one after another (R125, R136). A halted state is a fixed point of `step`, so the result of a run is
the state it stays in (R136, D17). An infinite run is no error (R138). -/

namespace Sys2Proof.Machine

/-- The state after `n` steps. -/
def run : Nat → State → Host.Outcome State Fault Refusal
  | 0, s => .next s
  | n + 1, s =>
    match step s with
    | .next t => run n t
    | .fault r => .fault r
    | .refused r => .refused r

end Sys2Proof.Machine
end

