-- ==== Sys2Proof/Machine/Hazard.lean ====
section
/-! DEFINITION. Register hazards (R139 to R144). The machine does not look at any of this: it has no interlock and no forwarding
(R76, D25). -/

namespace Sys2Proof.Machine

/-- `r` is a source of the instruction (R47). -/
def readsReg (i : Instr) (r : Reg) : Bool := decide (rsSource i = some r) || decide (rtSource i = some r)

/-- The consumer has a source `r != 0` that the producer writes (R140). -/
def conflicts (producer consumer : Instr) : Bool :=
  match dest producer with
  | some r => decide (r ≠ 0#5) && readsReg consumer r
  | none => false

/-- The instruction in FD will read stale data: a source of it is the destination of the instruction in DE or in EM (R140). -/
def hazardNow (s : State) : Bool := conflicts s.de.instr s.fd.instr || conflicts s.em.instr s.fd.instr

/-- In none of the first `n` cycles from `s` is there a hazard (R144). -/
def HazardFree (n : Nat) (s : State) : Prop := ∀ k t, k < n → run k s = .next t → hazardNow t = false

/-- The instruction at index `k` of an image. -/
def instrAt (prog : List InstrWord) (k : Nat) : Option Instr :=
  match prog[k]? with
  | none => none
  | some w =>
    match decode w with
    | .ok i => some i
    | .error _ => none

/-- The static condition of R144: no instruction reads what one of the two before it in the text writes. -/
def Spaced (prog : List InstrWord) : Prop :=
  ∀ k p c, instrAt prog k = some p → (instrAt prog (k + 1) = some c ∨ instrAt prog (k + 2) = some c) →
    conflicts p c = false

end Sys2Proof.Machine
end

