-- ==== Sys2Proof/Machine/Sequential.lean ====
section
/-! DEFINITION. The sequential machine of R144: the reference, program-order meaning. It is not a definition of CORE ("for a run
that is not hazard-free only `40_pipeline.md` rule R70 tells the result"); `step` does not use it. -/

namespace Sys2Proof.Machine

/-- The state `(x, mem, pc)` of the sequential machine. -/
structure SeqState where
  regs : RegFile
  pc : Word
  mem : Memory
  deriving DecidableEq, Repr

/-- `x[r] <- v ; pc <- pc + 1`. -/
def SeqState.result (q : SeqState) (r : Reg) (v : Word) : SeqState :=
  { q with regs := RegFile.write q.regs r v, pc := q.pc + 1#32 }

/-- One instruction of the sequential machine (R144). -/
def seqExec (memSize : Nat) (fill : SrlFill) (i : Instr) (q : SeqState) : SeqState :=
  let x := RegFile.read q.regs
  match i with
  | .add rd rs rt => q.result rd (x rs + x rt)
  | .sub rd rs rt => q.result rd (x rs - x rt)
  | .mul rd rs rt => q.result rd (x rs * x rt)
  | .and rd rs rt => q.result rd (x rs &&& x rt)
  | .or rd rs rt => q.result rd (x rs ||| x rt)
  | .addi rt rs imm => q.result rt (x rs + imm)
  | .sll rd rt shamt => q.result rd (x rt <<< shiftAmount shamt)
  | .srl rd rt shamt => q.result rd (shiftRight fill (x rt) (shiftAmount shamt))
  | .lw rt base offset => q.result rt (memRead memSize q.mem (x base + offset))
  | .sw rt base offset => { q with mem := memWrite memSize q.mem (x base + offset) (x rt), pc := q.pc + 1#32 }
  | .beq rs rt address => { q with pc := if x rs = x rt then address else q.pc + 1#32 }
  | .j address => { q with pc := address }
  | .nop => { q with pc := q.pc + 1#32 }

/-- One step while `pc` is inside the program; `none` outside it, or on a word that is not well-formed. -/
def seqStep (prog : List InstrWord) (memSize : Nat) (fill : SrlFill) (q : SeqState) : Option SeqState :=
  match wordAt prog q.pc with
  | none => none
  | some w =>
    match decode w with
    | .ok i => some (seqExec memSize fill i q)
    | .error _ => none

/-- `m` steps of the sequential machine. -/
def seqRun (prog : List InstrWord) (memSize : Nat) (fill : SrlFill) : Nat → SeqState → Option SeqState
  | 0, q => some q
  | m + 1, q =>
    match seqStep prog memSize fill q with
    | some q' => seqRun prog memSize fill m q'
    | none => none

/-- The sequential machine's view of a state of CORE. -/
def State.seqView (s : State) : SeqState := ⟨s.regs, s.pc, s.mem⟩

end Sys2Proof.Machine
end

