-- ==== Sys2Proof/Machine/Simulation.lean ====
section
/-! DEFINITION. How a state of CORE stands for a state of the sequential machine of R144: the instructions in MW, EM and DE have
their remaining effects, in program order, and the one in FD is the next to be performed. The relation is this model's own (R144
states the end of a run only); `step` does not use it. -/

namespace Sys2Proof.Machine

/-- The ALU result of the cycle in which Execute handles `i` (R70 step 3). Claims name it by this function; each meaning computes
it itself. -/
def aluResult (i : Instr) (s : State) : Word :=
  match i with
  | .add _ _ _ => s.de.rsVal + s.de.rtVal
  | .sub _ _ _ => s.de.rsVal - s.de.rtVal
  | .mul _ _ _ => s.de.rsVal * s.de.rtVal
  | .and _ _ _ => s.de.rsVal &&& s.de.rtVal
  | .or _ _ _ => s.de.rsVal ||| s.de.rtVal
  | .addi _ _ _ => s.de.rsVal + s.de.imm
  | .sll _ _ _ => s.de.rtVal <<< shiftAmount s.de.imm
  | .srl _ _ _ => shiftRight s.srlFill s.de.rtVal (shiftAmount s.de.imm)
  | .lw _ _ _ | .sw _ _ _ => effectiveAddress s.de.rsVal s.de.imm
  | .beq _ _ _ | .j _ | .nop => 0#32

/-- What the instruction in EM still has to do: its memory access, then its register write (R73, R74). -/
def finishEM (memSize : Nat) (l : EMLatch) (x : RegFile) (m : Memory) : RegFile × Memory :=
  (writeBack (memoryStage memSize m l) x, storeStage memSize m l)

/-- The index of the next instruction in program order that is not in DE, EM or MW: the target of a branch about to be taken, else
the instruction in FD, else, with FD empty, the one Fetch is about to read. -/
def State.nextIndex (s : State) : Word :=
  match branchNow s with
  | some target => target
  | none => if s.fd = FDLatch.empty then s.pc else s.fd.npc - 1#32

/-- The state of the sequential machine a state of CORE stands for: MW, then EM, then DE finish. -/
def State.drained (s : State) : SeqState :=
  let afterEM := finishEM s.memSize s.em (writeBack s.mw s.regs) s.mem
  let afterDE := finishEM s.memSize ⟨s.de.instr, aluResult s.de.instr s, s.de.rtVal⟩ afterEM.1 afterEM.2
  ⟨afterDE.1, s.nextIndex, afterDE.2⟩

/-- Latch FD is empty, or holds what the program has at the index before `pc` (R77). -/
def FetchCoherent (s : State) : Prop :=
  s.fd = FDLatch.empty ∨
    (s.fd.npc = s.pc ∧ ∃ w, wordAt s.prog (s.pc - 1#32) = some w ∧ decode w = .ok s.fd.instr)

end Sys2Proof.Machine
end

