-- ==== Sys2Proof/Safety.lean ====
section
/-! DEFINITION. What holds of every state a run on a well-formed image can reach, as predicates claims use. -/

namespace Sys2Proof.Machine

/-- Every listed word index is below `bound`. -/
def Memory.below (bound : Nat) : Memory → Bool
  | [] => true
  | (a, _) :: rest => decide (a < bound) && Memory.below bound rest

/-- An operand the shape does not have is latched as 0 (D14), and register 0 is read as 0 (R11). -/
def sourceOk (source : Option Reg) (v : Word) : Bool :=
  match source with
  | none => decide (v = 0#32)
  | some r => decide (r ≠ 0#5) || decide (v = 0#32)

/-- BEQ, J and bubbles: the instructions whose ALU result is 0 (R75, D14). -/
def computesNothing (i : Instr) : Bool :=
  match i with
  | .beq _ _ _ | .j _ | .nop => true
  | .add _ _ _ | .sub _ _ _ | .mul _ _ _ | .and _ _ _ | .or _ _ _ => false
  | .addi _ _ _ | .sll _ _ _ | .srl _ _ _ | .lw _ _ _ | .sw _ _ _ => false

/-- LW, the one load. -/
def isLoad (i : Instr) : Bool :=
  match i with
  | .lw _ _ _ => true
  | .nop | .add _ _ _ | .sub _ _ _ | .mul _ _ _ | .and _ _ _ | .or _ _ _ => false
  | .addi _ _ _ | .sll _ _ _ | .srl _ _ _ | .sw _ _ _ | .beq _ _ _ | .j _ => false

/-- Latch FD: empty, or holding an admitted instruction whose successor is the next to be fetched (R18, R77). -/
def fdOk (pc : Word) (l : FDLatch) : Bool :=
  l.instr.wellFormed && (decide (l = FDLatch.empty) || decide (l.npc = pc))

/-- Latch DE: the values Decode latches (R19, D14). -/
def deOk (l : DELatch) : Bool :=
  l.instr.wellFormed && decide (l.imm = immField l.instr) && sourceOk (rsSource l.instr) l.rsVal &&
    sourceOk (rtSource l.instr) l.rtVal

/-- Latch EM (R20, D14). -/
def emOk (l : EMLatch) : Bool :=
  l.instr.wellFormed && sourceOk (rtSource l.instr) l.rtVal && (!computesNothing l.instr || decide (l.aluResult = 0#32))

/-- Latch MW (R21, D14). -/
def mwOk (l : MWLatch) : Bool :=
  l.instr.wellFormed && sourceOk (rtSource l.instr) l.rtVal && (!computesNothing l.instr || decide (l.aluResult = 0#32)) &&
    (isLoad l.instr || decide (l.memData = 0#32))

/-- The invariant of the machine: the image is well-formed (R56), memory is in its canonical form and inside `MEM_SIZE` (R15), `pc`
is never negative (R14), every latch holds an admitted instruction with the values the stages define (R18 to R21, R103). -/
structure State.Inv (s : State) : Prop where
  image : imageOk s.prog = true
  memWf : Memory.wf s.mem = true
  memInside : Memory.below s.memSize s.mem = true
  pcNonneg : 0 ≤ s.pc.toInt
  fd : fdOk s.pc s.fd = true
  de : deOk s.de = true
  em : emOk s.em = true
  mw : mwOk s.mw = true

/-- A safe state: a well-formed image, so that the machine can always take its next step (R113, R116). -/
def State.Safe (s : State) : Prop := imageOk s.prog = true

end Sys2Proof.Machine
end

