-- ==== Sys2Proof/Certificates/Slice0/Obligations.lean ====
section
/-! DEFINITION. The statements about CORE, and the few definitions they share. -/

namespace Sys2Proof.Machine

/-! ### What the statements share -/

/-- The word of `i` in numbers (R45): `CTL = opcode << 28 | rs << 23 | rt << 18 | rd << 13`, then `IMM`, then `ADDR`. -/
def Encodes (i : Instr) (opcode : Nat) (rs rt rd : Reg) (imm address : Word) : Prop :=
  (encode i).toNat =
    (opcode * 2 ^ 28 + rs.toNat * 2 ^ 23 + rt.toNat * 2 ^ 18 + rd.toNat * 2 ^ 13) * 2 ^ 64 +
      imm.toNat * 2 ^ 32 + address.toNat

/-- Decode of `i` (cycle f+1): whatever instruction `k` is in Execute, if it does not flush, DE gets `i` and its operands as the
register file holds them after this cycle's Write-Back (R76). -/
def DecodesTo (i : Instr) (rsVal rtVal : RegFile → Word) (imm : Word) : Prop :=
  ∀ k s t, s.fd.instr = i → branchOf k s.de = none → exec k s = .next t →
    t.de = ⟨i, rsVal t.regs, rtVal t.regs, imm⟩

/-- Nothing was squashed between `s` and the next state `t`: Decode and Fetch did their work (R76, R77). -/
def NotSquashed (s t : State) : Prop :=
  t.de = decodeStage t.regs s.fd.instr ∧ fetchStage s.prog s.pc = .ok ⟨t.fd, t.pc⟩

/-- The cycle flushed (R78). -/
def Squashed (t : State) (target : Word) : Prop :=
  t.pc = target ∧ t.fd = ⟨.nop, 0#32⟩ ∧ t.de = ⟨.nop, 0#32, 0#32, 0#32⟩

/-- From the cycle that executes `i` to the one that writes its register: `exec i s` completes with the result in EM and no
flush, the Memory stage makes no access, Write-Back writes `rd` with the result, and no other register with anything of `i`;
a write to register 0 writes nothing. -/
def ResultPassage (i : Instr) (rd : Reg) (when : State → Prop) (result : State → Word) : Prop :=
  ∀ s, imageOk s.prog = true → when s →
    ∃ t1 t2 t3, exec i s = .next t1 ∧ step t1 = .next t2 ∧ step t2 = .next t3 ∧
      t1.em = ⟨i, result s, s.de.rtVal⟩ ∧ NotSquashed s t1 ∧
      t2.mem = t1.mem ∧ t2.mw = ⟨i, result s, s.de.rtVal, 0#32⟩ ∧
      t3.mem = storeStage t2.memSize t2.mem t2.em ∧
      ∀ r, t3.reg r = if r = rd ∧ r ≠ 0#5 then result s else t2.reg r

/-- A register-register operation (format R): its word, its Decode, its passage. -/
def RegisterOperation (make : Reg → Reg → Reg → Instr) (opcode : Nat) (op : Word → Word → Word) : Prop :=
  ∀ rd rs rt : Reg,
    Encodes (make rd rs rt) opcode rs rt rd 0#32 0#32 ∧
    DecodesTo (make rd rs rt) (fun x => RegFile.read x rs) (fun x => RegFile.read x rt) 0#32 ∧
    ResultPassage (make rd rs rt) rd (fun _ => True) (fun s => op s.de.rsVal s.de.rtVal)

/-- An instruction that commits nothing: from its Execute on, it touches no memory and no register. -/
def CommitsNothing (t1 : State) : Prop :=
  ∃ t2 t3, step t1 = .next t2 ∧ t2.mem = t1.mem ∧ step t2 = .next t3 ∧ t3.regs = t2.regs

/-- `s32(n)` of an exact integer (R7). -/
def s32 (n : Int) : Word := BitVec.ofInt 32 n

/-- The state has its own fresh-start values in everything that reset clears. -/
def ClearedByReset (t : State) : Prop :=
  (∀ r, t.reg r = 0#32) ∧ (∀ k, t.word k = 0#32) ∧ t.pc = 0#32 ∧ t.fd = ⟨.nop, 0#32⟩ ∧
  t.de = ⟨.nop, 0#32, 0#32, 0#32⟩ ∧ t.em = ⟨.nop, 0#32, 0#32⟩ ∧ t.mw = ⟨.nop, 0#32, 0#32, 0#32⟩ ∧ t.cycles = 0

/-- R56 checks 2 to 5 of a word, in its fields: which opcode uses which field is R47's table. -/
def WordAdmitted (w : InstrWord) : Prop :=
  let f := unpack w
  f.opcode.toNat ≤ 12 ∧ f.zero = 0#13 ∧
  (f.opcode.toNat ∉ [1, 2, 3, 4, 5, 6, 9, 10, 11] → f.rs = 0#5) ∧
  (f.opcode.toNat ∉ [1, 2, 3, 4, 5, 6, 7, 8, 9, 10, 11] → f.rt = 0#5) ∧
  (f.opcode.toNat ∉ [1, 2, 3, 4, 5, 7, 8] → f.rd = 0#5) ∧
  (f.opcode.toNat ∉ [6, 7, 8, 9, 10] → f.imm = 0#32) ∧
  (f.opcode.toNat ∉ [11, 12] → f.address = 0#32) ∧
  (f.opcode.toNat ∈ [7, 8] → 0 ≤ f.imm.toInt ∧ f.imm.toInt ≤ 31) ∧
  (f.opcode.toNat ∈ [11, 12] → 0 ≤ f.address.toInt)

/-- The instruction is a BEQ or a J. -/
def transfersControl (i : Instr) : Bool :=
  match i with
  | .beq _ _ _ | .j _ => true
  | .nop | .add _ _ _ | .sub _ _ _ | .mul _ _ _ | .and _ _ _ | .or _ _ _ => false
  | .addi _ _ _ | .sll _ _ _ | .srl _ _ _ | .lw _ _ _ | .sw _ _ _ => false

end Sys2Proof.Machine

section
open Sys2Proof Sys2Proof.Machine

/-! ### Reset, loading, halting -/

/-- R27: what reset leaves, in the constant reset state and in a loaded machine, whose image and parameters it keeps; and a load
checks the image first. -/
def Obligations.ResetClearsTheMachine : Prop :=
  ClearedByReset State.reset ∧
  (∀ s : State, ClearedByReset s.resetCore ∧ s.resetCore.prog = s.prog ∧ s.resetCore.memSize = s.memSize ∧
    s.resetCore.srlFill = s.srlFill) ∧
  (∀ image n fill s, load image n fill = .ok s →
    ClearedByReset s ∧ imageOk image = true ∧ 0 < n ∧ s.prog = image ∧ s.memSize = n ∧ s.srlFill = fill)

/-- An image the loader rejects is never executed: no load, no step (R113). -/
def Obligations.RejectedImageNeverRuns : Prop :=
  ∀ image, imageOk image = false →
    (∀ n fill, ∃ e, load image n fill = .error (.image e)) ∧
    (∀ s : State, s.prog = image → ∃ e, step s = .refused (.illFormedImage e))

/-- On a well-formed image a run never stops with a fault or a refusal (93, end of section 1). -/
def Obligations.AdmittedImageAlwaysSteps : Prop :=
  ∀ s : State, s.Safe → ∀ n, ∃ t, run n s = .next t

/-- When CORE is halted; a cycle of a halted machine changes the cycle count and FD.npc only; an empty program is halted at its start:
these are R136. That `step` tests for the halt and is the identity there is the model's reading of D17 (DEDUCED, log 7): R136 leaves
the test to the model. -/
def Obligations.HaltedIsAFixedPoint : Prop :=
  (∀ s : State, halted s = true ↔
    ¬(0 ≤ s.pc.toInt ∧ s.pc.toInt < s.prog.length) ∧ s.fd.instr = .nop ∧ s.de.instr = .nop ∧ s.em.instr = .nop ∧
      s.mw.instr = .nop) ∧
  (∀ s : State, s.Inv → halted s = true →
    exec s.de.instr s = .next { s with cycles := s.cycles + 1, fd := ⟨.nop, 0#32⟩ }) ∧
  (∀ s : State, imageOk s.prog = true → halted s = true → step s = .next s) ∧
  (∀ n fill s, load [] n fill = .ok s → halted s = true)

/-- A halted machine stays as it is for ever (D17, R123). -/
def Obligations.HaltIsFinal : Prop :=
  ∀ s : State, imageOk s.prog = true → halted s = true → ∀ n, run n s = .next s

/-- R120: the cycle count starts at 0, counts cycle boundaries, stops at the halt, and nothing else depends on it. -/
def Obligations.CycleCounterCounts : Prop :=
  State.reset.cycles = 0 ∧
  (∀ i s t, exec i s = .next t → t.cycles = s.cycles + 1 ∧
    ∀ c, exec i { s with cycles := c } = .next { t with cycles := c + 1 }) ∧
  (∀ s t, step s = .next t → t.cycles = if halted s then s.cycles else s.cycles + 1)

/-! ### Steps and instructions -/

/-- A step runs the instruction in latch DE; and a word placed by `withFetchWord` is the one the next step runs. -/
def Obligations.StepExecutesLatchedInstruction : Prop :=
  (∀ s : State, imageOk s.prog = true → halted s = false → step s = exec s.de.instr s) ∧
  (∀ (s : State) (w : Nat) (i : Instr), imageOk s.prog = true → s.prog.length < Config.maxProgLen → w < 2 ^ 96 →
    decode (BitVec.ofNat 96 w) = .ok i →
    (s.withFetchWord 96 w).de = decodeStage s.regs i ∧
    step (s.withFetchWord 96 w) = exec i (s.withFetchWord 96 w))

/-- The word at `pc` that decodes to `i`, unless squashed, is in FD after one step and in DE after two, with its operands read,
and the step after that is `exec i` (R81). -/
def Obligations.FetchedWordReachesExecute : Prop :=
  ∀ s w i t1 t2, wordAt s.prog s.pc = some w → decode w = .ok i →
    branchNow s = none → step s = .next t1 → branchNow t1 = none → step t1 = .next t2 →
    t1.fd = ⟨i, s.pc + 1#32⟩ ∧ t1.pc = s.pc + 1#32 ∧ t2.de = decodeStage t2.regs i ∧
    (halted t2 = false → step t2 = exec i t2)

/-! ### The stages -/

/-- R11: register 0 reads as 0, in every state, and a write to it writes nothing. -/
def Obligations.RegisterZeroIsHardWired : Prop :=
  (∀ s : State, s.reg 0#5 = 0#32) ∧ (∀ (x : RegFile) v, RegFile.write x 0#5 v = x) ∧
  (∀ i s t, exec i s = .next t → dest s.mw.instr = some 0#5 → t.regs = s.regs ∧ t.reg 0#5 = 0#32)

/-- R73: what Write-Back commits, opcode by opcode. -/
def Obligations.WriteBackCommits : Prop :=
  ∀ i s t, exec i s = .next t →
    match s.mw.instr with
    | .add rd _ _ | .sub rd _ _ | .mul rd _ _ | .and rd _ _ | .or rd _ _ | .sll rd _ _ | .srl rd _ _ =>
      ∀ r, t.reg r = if r = rd ∧ r ≠ 0#5 then s.mw.aluResult else s.reg r
    | .addi rt _ _ => ∀ r, t.reg r = if r = rt ∧ r ≠ 0#5 then s.mw.aluResult else s.reg r
    | .lw rt _ _ => ∀ r, t.reg r = if r = rt ∧ r ≠ 0#5 then s.mw.memData else s.reg r
    | .sw _ _ _ | .beq _ _ _ | .j _ | .nop => t.regs = s.regs

/-- R74: the Memory stage. -/
def Obligations.MemoryStageAccesses : Prop :=
  ∀ i s t, exec i s = .next t →
    t.mw.instr = s.em.instr ∧ t.mw.aluResult = s.em.aluResult ∧ t.mw.rtVal = s.em.rtVal ∧
    match s.em.instr with
    | .lw _ _ _ => t.mw.memData = memRead s.memSize s.mem s.em.aluResult ∧ t.mem = s.mem
    | .sw _ _ _ => t.mw.memData = 0#32 ∧ t.mem = memWrite s.memSize s.mem s.em.aluResult s.em.rtVal
    | .nop | .add _ _ _ | .sub _ _ _ | .mul _ _ _ | .and _ _ _ | .or _ _ _ | .addi _ _ _ | .sll _ _ _ | .srl _ _ _
    | .beq _ _ _ | .j _ => t.mw.memData = 0#32 ∧ t.mem = s.mem

/-- R77: Fetch, in a cycle that does not flush. -/
def Obligations.FetchAdvances : Prop :=
  ∀ i s, imageOk s.prog = true → branchOf i s.de = none →
    ∃ t, exec i s = .next t ∧
      (if 0 ≤ s.pc.toInt ∧ s.pc.toInt < s.prog.length then
        ∃ w k, s.prog[s.pc.toNat]? = some w ∧ decode w = .ok k ∧ t.fd = ⟨k, s.pc + 1#32⟩ ∧ t.pc = s.pc + 1#32
      else t.fd = ⟨.nop, 0#32⟩ ∧ t.pc = s.pc)

/-- R78: a taken branch sets `pc` to its target and turns FD' and DE' into bubbles; EM' holds the branch and MW' the instruction
that was in EM; the register write and the memory access of the cycle take place (R115). -/
def Obligations.FlushDiscardsTwoSlots : Prop :=
  ∀ i s target, imageOk s.prog = true → branchOf i s.de = some target →
    ∃ t, exec i s = .next t ∧ Squashed t target ∧ t.em = ⟨i, 0#32, s.de.rtVal⟩ ∧
      t.mw = memoryStage s.memSize s.mem s.em ∧ t.regs = writeBack s.mw s.regs ∧
      t.mem = storeStage s.memSize s.mem s.em

/-- R14: how `pc` can change, and that its increment never overflows. -/
def Obligations.PcChangesInTwoWays : Prop :=
  ∀ i s t, imageOk s.prog = true → exec i s = .next t →
    (∃ target, branchOf i s.de = some target ∧ t.pc = target) ∨
    (branchOf i s.de = none ∧
      if 0 ≤ s.pc.toInt ∧ s.pc.toInt < s.prog.length then t.pc.toInt = s.pc.toInt + 1 else t.pc = s.pc)

/-- R82: the frame of a cycle, whatever instruction is in Execute: at most one register, the destination of the instruction in MW;
at most one memory word, the one SW in EM names; the cycle count by one; and the parameters of the run not at all. -/
def Obligations.CycleFrame : Prop :=
  ∀ i s t, exec i s = .next t →
    (∀ r, dest s.mw.instr ≠ some r → t.reg r = s.reg r) ∧
    (∀ k, (∀ rt base offset, s.em.instr = .sw rt base offset → place s.memSize s.em.aluResult ≠ some k) →
      t.word k = s.word k) ∧
    t.cycles = s.cycles + 1 ∧ t.prog = s.prog ∧ t.memSize = s.memSize ∧ t.srlFill = s.srlFill

/-- R80: a bubble writes no register and no memory, takes no branch, reads no register and computes 0, in every stage; and it
moves on. -/
def Obligations.BubbleChangesNothing : Prop :=
  ∀ i s t, exec i s = .next t →
    (s.mw.instr.valid = false → t.regs = s.regs) ∧
    (s.em.instr.valid = false → t.mem = s.mem ∧ t.mw.memData = 0#32 ∧ t.mw.instr.valid = false) ∧
    (i.valid = false → branchOf i s.de = none ∧ t.em = ⟨.nop, 0#32, s.de.rtVal⟩) ∧
    (s.fd.instr.valid = false → t.de = ⟨.nop, 0#32, 0#32, 0#32⟩)

/-! ### The instructions -/

/-- R90. -/
def Obligations.AddWrapsTheSum : Prop := RegisterOperation .add 1 (fun a b => s32 (a.toInt + b.toInt))

/-- R91. -/
def Obligations.SubWrapsTheDifference : Prop := RegisterOperation .sub 2 (fun a b => s32 (a.toInt - b.toInt))

/-- R92. -/
def Obligations.MulKeepsTheLowWord : Prop := RegisterOperation .mul 3 (fun a b => s32 (a.toInt * b.toInt))

/-- R93. -/
def Obligations.AndIsBitwise : Prop := RegisterOperation .and 4 (fun a b => a &&& b)

/-- R94. -/
def Obligations.OrIsBitwise : Prop := RegisterOperation .or 5 (fun a b => a ||| b)

/-- R95. -/
def Obligations.AddiAddsTheImmediate : Prop :=
  ∀ (rt rs : Reg) (imm : Word),
    Encodes (.addi rt rs imm) 6 rs rt 0#5 imm 0#32 ∧
    DecodesTo (.addi rt rs imm) (fun x => RegFile.read x rs) (fun _ => 0#32) imm ∧
    ResultPassage (.addi rt rs imm) rt (fun _ => True) (fun s => s32 (s.de.rsVal.toInt + s.de.imm.toInt))

/-- R96: `s32(x[rt] * 2^shamt)`, the amount `imm[4:0]`. -/
def Obligations.SllMultipliesByAPowerOfTwo : Prop :=
  ∀ (rd rt : Reg) (shamt : Word),
    Encodes (.sll rd rt shamt) 7 0#5 rt rd shamt 0#32 ∧
    DecodesTo (.sll rd rt shamt) (fun _ => 0#32) (fun x => RegFile.read x rt) shamt ∧
    ResultPassage (.sll rd rt shamt) rd (fun _ => True) (fun s => s32 (s.de.rtVal.toInt * 2 ^ (s.de.imm.toNat % 32)))

/-- R97: `floor(zext(x[rt]) / 2^shamt)`, the amount `imm[4:0]`, in a run whose `SRL_FILL` is `zero`, the spec's value (R6). -/
def Obligations.SrlShiftsZerosIn : Prop :=
  ∀ (rd rt : Reg) (shamt : Word),
    Encodes (.srl rd rt shamt) 8 0#5 rt rd shamt 0#32 ∧
    DecodesTo (.srl rd rt shamt) (fun _ => 0#32) (fun x => RegFile.read x rt) shamt ∧
    ResultPassage (.srl rd rt shamt) rd (fun s => s.srlFill = .zero)
      (fun s => BitVec.ofNat 32 (s.de.rtVal.toNat / 2 ^ (s.de.imm.toNat % 32)))

/-- The other form of SRL: in a run whose `SRL_FILL` is `sign` (the parameter of D5 and U2, the model's field by log 3), the floor of
the signed quotient. -/
def Obligations.SrlCopiesTheSignWhereSet : Prop :=
  ∀ (rd rt : Reg) (shamt : Word),
    ResultPassage (.srl rd rt shamt) rd (fun s => s.srlFill = .sign)
      (fun s => s32 (s.de.rtVal.toInt / 2 ^ (s.de.imm.toNat % 32)))

/-- R98: the memory is read as it stands after the stores of all older instructions, one cycle after Execute. -/
def Obligations.LwLoadsTheWord : Prop :=
  ∀ (rt base : Reg) (offset : Word),
    Encodes (.lw rt base offset) 9 base rt 0#5 offset 0#32 ∧
    DecodesTo (.lw rt base offset) (fun x => RegFile.read x base) (fun _ => 0#32) offset ∧
    ∀ s, imageOk s.prog = true →
      ∃ t1 t2 t3, exec (.lw rt base offset) s = .next t1 ∧ step t1 = .next t2 ∧ step t2 = .next t3 ∧
        t1.em = ⟨.lw rt base offset, s32 (s.de.rsVal.toInt + s.de.imm.toInt), s.de.rtVal⟩ ∧ NotSquashed s t1 ∧
        t2.mem = t1.mem ∧
        (∃ data, t2.mw = ⟨.lw rt base offset, t1.em.aluResult, s.de.rtVal, data⟩ ∧
          data = (if 0 ≤ widx t1.em.aluResult ∧ widx t1.em.aluResult < s.memSize
            then t1.word (widx t1.em.aluResult).toNat else 0#32) ∧
          ∀ r, t3.reg r = if r = rt ∧ r ≠ 0#5 then data else t2.reg r)

/-- R99: one cycle after Execute the word the address names, if there is one, becomes the latched data, and every other word
stays; no register is written. -/
def Obligations.SwStoresTheWord : Prop :=
  ∀ (rt base : Reg) (offset : Word),
    Encodes (.sw rt base offset) 10 base rt 0#5 offset 0#32 ∧
    DecodesTo (.sw rt base offset) (fun x => RegFile.read x base) (fun x => RegFile.read x rt) offset ∧
    ∀ s, imageOk s.prog = true → Memory.wf s.mem = true →
      ∃ t1 t2 t3, exec (.sw rt base offset) s = .next t1 ∧ step t1 = .next t2 ∧ step t2 = .next t3 ∧
        t1.em = ⟨.sw rt base offset, s32 (s.de.rsVal.toInt + s.de.imm.toInt), s.de.rtVal⟩ ∧ NotSquashed s t1 ∧
        (∀ k, t2.word k = if place s.memSize t1.em.aluResult = some k then s.de.rtVal else t1.word k) ∧
        t2.mw = ⟨.sw rt base offset, t1.em.aluResult, s.de.rtVal, 0#32⟩ ∧
        t3.regs = t2.regs

/-- R100. -/
def Obligations.BeqBranchesOnEquality : Prop :=
  ∀ (rs rt : Reg) (address : Word),
    Encodes (.beq rs rt address) 11 rs rt 0#5 0#32 address ∧
    DecodesTo (.beq rs rt address) (fun x => RegFile.read x rs) (fun x => RegFile.read x rt) 0#32 ∧
    ∀ s, imageOk s.prog = true →
      ∃ t1, exec (.beq rs rt address) s = .next t1 ∧ t1.em = ⟨.beq rs rt address, 0#32, s.de.rtVal⟩ ∧
        (s.de.rsVal = s.de.rtVal → Squashed t1 address) ∧
        (s.de.rsVal ≠ s.de.rtVal → NotSquashed s t1) ∧
        CommitsNothing t1

/-- R101. -/
def Obligations.JumpAlwaysRedirects : Prop :=
  ∀ address : Word,
    Encodes (.j address) 12 0#5 0#5 0#5 0#32 address ∧
    DecodesTo (.j address) (fun _ => 0#32) (fun _ => 0#32) 0#32 ∧
    ∀ s, imageOk s.prog = true →
      ∃ t1, exec (.j address) s = .next t1 ∧ t1.em = ⟨.j address, 0#32, s.de.rtVal⟩ ∧ Squashed t1 address ∧
        CommitsNothing t1

/-- R102: the word of NOP, its validity, its Fetch, its Decode, and from its Execute on. -/
def Obligations.NopHasNoEffect : Prop :=
  Encodes .nop 0 0#5 0#5 0#5 0#32 0#32 ∧ decode bubbleWord = .ok .nop ∧ Instr.valid .nop = false ∧
  (∀ i s, imageOk s.prog = true → branchOf i s.de = none → wordAt s.prog s.pc = some bubbleWord →
    ∃ t, exec i s = .next t ∧ t.fd = ⟨.nop, s.pc + 1#32⟩ ∧ t.pc = s.pc + 1#32) ∧
  DecodesTo .nop (fun _ => 0#32) (fun _ => 0#32) 0#32 ∧
  ∀ s, imageOk s.prog = true →
    ∃ t1, exec .nop s = .next t1 ∧ t1.em = ⟨.nop, 0#32, s.de.rtVal⟩ ∧ NotSquashed s t1 ∧ CommitsNothing t1

/-! ### Data memory -/

/-- R31: the word index of a byte address. -/
def Obligations.WordIndexRoundsTowardZero : Prop :=
  (∀ a : Word, widx a = if 0 ≤ a.toInt then a.toInt / 4 else -((-a.toInt) / 4)) ∧
  widx 5#32 = 1 ∧ widx 7#32 = 1 ∧ widx (-1#32) = 0 ∧ widx (-2#32) = 0 ∧ widx (-3#32) = 0 ∧ widx (-4#32) = -1 ∧
  widx (BitVec.intMin 32) = -(2 ^ 29)

/-- R37: the address map. -/
def Obligations.AddressMap : Prop :=
  ∀ (memSize : Nat) (a : Word), 0 < memSize →
    (a.toInt ≤ -4 → place memSize a = none) ∧
    (-3 ≤ a.toInt → a.toInt ≤ -1 → place memSize a = some 0) ∧
    (0 ≤ a.toInt → a.toInt ≤ 4 * memSize - 1 → place memSize a = some (a.toInt / 4).toNat) ∧
    (4 * memSize ≤ a.toInt → place memSize a = none)

/-- R32 and R33: what a load reads and what a store changes, in range and out of range; an out-of-range load goes on as a valid
instruction with data 0, which it writes to its destination; a dropped store leaves nothing but itself in MW: the state is that of a
cycle with no instruction in EM. -/
def Obligations.MemoryPortIsBoundsChecked : Prop :=
  (∀ (n : Nat) (m : Memory) (a v : Word), Memory.wf m = true →
    memRead n m a = (if 0 ≤ widx a ∧ widx a < n then Memory.read m (widx a).toNat else 0#32) ∧
    (0 ≤ widx a → widx a < n → ∀ k,
      Memory.read (memWrite n m a v) k = if (k : Int) = widx a then v else Memory.read m k) ∧
    (¬(0 ≤ widx a ∧ widx a < n) → memWrite n m a v = m)) ∧
  (∀ i s rt base offset, imageOk s.prog = true → s.em.instr = .lw rt base offset →
    ¬(0 ≤ widx s.em.aluResult ∧ widx s.em.aluResult < s.memSize) →
    ∃ t, exec i s = .next t ∧ t.mw.instr = .lw rt base offset ∧ t.mw.memData = 0#32 ∧ t.mem = s.mem ∧
      ∀ j, ∃ u, exec j t = .next u ∧ ∀ r, u.reg r = if r = rt ∧ r ≠ 0#5 then 0#32 else t.reg r) ∧
  (∀ i s rt base offset, imageOk s.prog = true → s.em.instr = .sw rt base offset →
    ¬(0 ≤ widx s.em.aluResult ∧ widx s.em.aluResult < s.memSize) →
    ∃ t, exec i s = .next t ∧ t.mem = s.mem ∧ t.mw.instr = .sw rt base offset ∧
      exec i { s with em := { s.em with instr := .nop } } = .next { t with mw := { t.mw with instr := .nop } })

/-- A store keeps the canonical form of memory, the model's own form of `mem` (DEDUCED, log 1). -/
def Obligations.StoreKeepsCanonicalForm : Prop :=
  ∀ (n : Nat) (m : Memory) (a v : Word), Memory.wf m = true → Memory.wf (memWrite n m a v) = true

/-- A load in the cycle after a store to the same word reads the stored word: no spacing is needed (R39). -/
def Obligations.StoreIsSeenByTheNextLoad : Prop :=
  ∀ s t1 t2 rt base offset rt' base' offset', imageOk s.prog = true → Memory.wf s.mem = true →
    s.em.instr = .sw rt base offset → exec (.lw rt' base' offset') s = .next t1 → step t1 = .next t2 →
    place s.memSize s.em.aluResult ≠ none → place s.memSize t1.em.aluResult = place s.memSize s.em.aluResult →
    t2.mw.memData = s.em.rtVal

/-! ### Encoding -/

/-- R68: the worked encodings, both ways. -/
def Obligations.WorkedEncodings : Prop :=
  decode 0x602000000000000500000000#96 = .ok (.addi 8#5 0#5 5#32) ∧
  decode 0xB42000000000000000000003#96 = .ok (.beq 8#5 8#5 3#32) ∧
  decode 0x64200000FFFFFFFF00000000#96 = .ok (.addi 8#5 8#5 (-1#32)) ∧
  encode (.addi 8#5 0#5 5#32) = 0x602000000000000500000000#96 ∧
  encode (.beq 8#5 8#5 3#32) = 0xB42000000000000000000003#96 ∧
  encode (.addi 8#5 8#5 (-1#32)) = 0x64200000FFFFFFFF00000000#96

/-- Decoding an encoded well-formed instruction gives it back, with every operand at every value the encoding admits. -/
def Obligations.DecodeOfEncode : Prop := ∀ i : Instr, i.wellFormed = true → decode (encode i) = .ok i

/-- A word the decoder accepts is the one encoding of what it decodes to: the encoding is a bijection between well-formed words and
instructions (D10). -/
def Obligations.EncodeOfDecode : Prop := ∀ w i, decode w = .ok i → encode i = w

/-- R51: a word with opcode code 13, 14 or 15 names no instruction, and no image that holds one is admitted. -/
def Obligations.ReservedOpcodesAreRejected : Prop :=
  ∀ w : InstrWord, 13 ≤ w.toNat / 2 ^ 92 →
    decode w = .error .reservedOpcode ∧ ∀ image, w ∈ image → imageOk image = false

/-- R56: the five checks of a well-formed image. -/
def Obligations.ImageIsWellFormedExactlyByItsChecks : Prop :=
  ∀ image : List InstrWord,
    imageOk image = true ↔ (image.length : Int) ≤ 2 ^ 31 - 1 ∧ ∀ w ∈ image, WordAdmitted w

/-! ### Hazards -/

/-- What Decode latches depends on FD, MW and the register file alone: two machines that differ in DE and EM, where younger
results wait, latch the same values (R76: no forwarding). -/
def Obligations.DecodeIgnoresInFlightResults : Prop :=
  ∀ i i' s s' t t', s.fd = s'.fd → s.mw = s'.mw → s.regs = s'.regs →
    branchOf i s.de = none → branchOf i' s'.de = none → exec i s = .next t → exec i' s' = .next t' → t.de = t'.de

/-- The table of stale reads (R142): a consumer in FD that reads `r != 0` gets the value of the producer in MW, written in that same
cycle; where the instruction in MW does not write `r`, it gets the register's content, whatever DE and EM hold. -/
def Obligations.ConsumerReadsCommittedValue : Prop :=
  ∀ i s t r, r ≠ 0#5 → branchOf i s.de = none → exec i s = .next t →
    (rsSource s.fd.instr = some r →
      (dest s.mw.instr = some r → t.de.rsVal = committed s.mw) ∧
      (dest s.mw.instr ≠ some r → t.de.rsVal = s.reg r)) ∧
    (rtSource s.fd.instr = some r →
      (dest s.mw.instr = some r → t.de.rtVal = committed s.mw) ∧
      (dest s.mw.instr ≠ some r → t.de.rtVal = s.reg r))

/-- A taken branch costs two slots: in the cycle after it, Fetch reads its target, and DE and EM get bubbles (R79). -/
def Obligations.TakenBranchCostsTwoSlots : Prop :=
  ∀ i s target t1, imageOk s.prog = true → branchOf i s.de = some target → exec i s = .next t1 →
    ∃ t2, step t1 = .next t2 ∧ fetchStage s.prog target = .ok ⟨t2.fd, t2.pc⟩ ∧ t2.de.instr = .nop ∧
      t2.em.instr = .nop ∧ t2.mw.instr = i

/-- R144: a hazard-free run that halts ends with the registers, memory and `pc` of the sequential machine. -/
def Obligations.HazardFreeRunIsSequential : Prop :=
  ∀ (s t : State) (n : Nat), imageOk s.prog = true → s.pc = 0#32 → s.fd = FDLatch.empty → s.de = DELatch.empty →
    s.em = EMLatch.empty → s.mw = MWLatch.empty → HazardFree n s → run n s = .next t → halted t = true →
    ∃ m, seqRun s.prog s.memSize s.srlFill m s.seqView = some t.seqView ∧
      seqStep s.prog s.memSize s.srlFill t.seqView = none

/-- The simulation step behind R144: a step from a state without a hazard leaves the state of the sequential machine CORE stands for
(`State.drained`, the model's own relation) as it is, or moves it by one step of that machine; and FD keeps matching the program. -/
def Obligations.HazardFreeStepIsSequential : Prop :=
  ∀ s t : State, FetchCoherent s → hazardNow s = false → step s = .next t →
    FetchCoherent t ∧
      (t.drained = s.drained ∨ seqStep s.prog s.memSize s.srlFill s.drained = some t.drained)

/-- What `State.drained` is at both ends of a run: with empty latches, the registers, `pc` and memory of CORE; in a halted state, the
same, or one NOP before it (the last word fetched, which R136 does not wait for). -/
def Obligations.DrainedAgreesAtTheEnds : Prop :=
  (∀ s : State, s.fd = FDLatch.empty → s.de = DELatch.empty → s.em = EMLatch.empty → s.mw = MWLatch.empty →
    FetchCoherent s ∧ s.drained = s.seqView) ∧
  (∀ s : State, FetchCoherent s → halted s = true →
    s.drained = s.seqView ∨ seqStep s.prog s.memSize s.srlFill s.drained = some s.seqView)

/-- The static condition of R144 is sufficient: a program that keeps two slots between a producer and its consumers runs without a
hazard. -/
def Obligations.SpacedProgramIsHazardFree : Prop :=
  ∀ (image : List InstrWord) (n : Nat) (fill : SrlFill) (s : State), load image n fill = .ok s → Spaced image →
    ∀ k, HazardFree k s

/-! ### Runs -/

/-- The invariant of every reachable state is kept by every step. -/
def Obligations.InvariantIsKept : Prop := ∀ s t : State, s.Inv → step s = .next t → t.Inv

/-- The reset state, and every loaded machine, meets the invariant. -/
def Obligations.InvariantHoldsAtStart : Prop :=
  State.reset.Inv ∧ ∀ image n fill s, load image n fill = .ok s → s.Inv

/-- R16 and R42: no run changes the program or the parameters. -/
def Obligations.ProgramIsImmutable : Prop :=
  ∀ n s t, run n s = .next t → t.prog = s.prog ∧ t.memSize = s.memSize ∧ t.srlFill = s.srlFill

/-- Once `pc` is out of the program and no BEQ or J waits in FD or DE, the pipeline drains within four cycles (R138). -/
def Obligations.PipelineDrainsInFourCycles : Prop :=
  ∀ s : State, imageOk s.prog = true → ¬(0 ≤ s.pc.toInt ∧ s.pc.toInt < s.prog.length) →
    transfersControl s.fd.instr = false → transfersControl s.de.instr = false →
    ∃ t, run 4 s = .next t ∧ halted t = true ∧ t.pc = s.pc

/-- R146: a program without BEQ and J whose last valid instruction is at index `v` halts after exactly `max(N, v + 5)` cycles, with
`pc` at its end. -/
def Obligations.StraightLineRunLength : Prop :=
  ∀ (image : List InstrWord) (n : Nat) (fill : SrlFill) (s : State) (v : Nat) (i : Instr),
    load image n fill = .ok s → (∀ k c, instrAt image k = some c → transfersControl c = false) →
    instrAt image v = some i → i.valid = true → (∀ k c, v < k → instrAt image k = some c → c.valid = false) →
    (∃ t, run (max image.length (v + 5)) s = .next t ∧ halted t = true ∧ t.cycles = max image.length (v + 5) ∧
      t.pc.toInt = image.length) ∧
    ∀ m, m < max image.length (v + 5) → ∃ t, run m s = .next t ∧ halted t = false

/-! ### The assembler -/

/-- R57: what the assembler emits is a well-formed image. -/
def Obligations.AssembledImageIsWellFormed : Prop :=
  ∀ text image, assemble text = .ok image → imageOk image = true

/-- R61 with the table of R12: named registers, numbered registers, and tokens without `$`. -/
def Obligations.RegisterTokens : Prop :=
  parseReg "$zero".toList = .ok 0#5 ∧ parseReg "$t0".toList = .ok 8#5 ∧ parseReg "$t7".toList = .ok 15#5 ∧
  parseReg "$s0".toList = .ok 16#5 ∧ parseReg "$s5".toList = .ok 21#5 ∧ parseReg "$5".toList = .ok 5#5 ∧
  parseReg "t0".toList = .ok 0#5 ∧ parseReg "7".toList = .ok 0#5 ∧
  parseReg "$ra".toList = .error .badRegister ∧ parseReg "$t8".toList = .error .badRegister ∧
  parseReg "$32".toList = .error .badRegister

end
end

