-- ==== Sys2Proof/Laws/Encoding.lean ====
section
/-! SUPPORT. The fields of the word: unpacking what was packed, and back. -/

namespace Sys2Proof

/-- The high part of a joined pattern. -/
theorem extract_high {m n : Nat} (a : BitVec m) (b : BitVec n) (k w : Nat) :
    (a ++ b).extractLsb' (n + k) w = a.extractLsb' k w := by
  ext i hi
  have h : ¬n + k + i < n := by omega
  have e : n + k + i - n = k + i := by omega
  simp [BitVec.getElem_extractLsb', BitVec.getLsbD_append, h, e]

/-- The low part of a joined pattern. -/
theorem extract_low {m n : Nat} (a : BitVec m) (b : BitVec n) : (a ++ b).extractLsb' 0 n = b := by
  ext i hi
  simp [BitVec.getElem_extractLsb', BitVec.getLsbD_append, hi]

/-- A whole pattern. -/
theorem extract_all {n : Nat} (a : BitVec n) : a.extractLsb' 0 n = a := by
  ext i hi
  simp

/-- No field is lost or moved by packing (R45). -/
@[simp] theorem unpack_pack (f : Fields) : unpack (pack f) = f := by
  obtain ⟨op, rs, rt, rd, z, imm, addr⟩ := f
  have h6 : (op ++ rs ++ rt ++ rd ++ z ++ imm ++ addr).extractLsb' 0 32 = addr := extract_low _ _
  have h5 : (op ++ rs ++ rt ++ rd ++ z ++ imm ++ addr).extractLsb' (32 + 0) 32 = imm := by
    rw [extract_high, extract_low]
  have h4 : (op ++ rs ++ rt ++ rd ++ z ++ imm ++ addr).extractLsb' (32 + (32 + 0)) 13 = z := by
    rw [extract_high, extract_high, extract_low]
  have h3 : (op ++ rs ++ rt ++ rd ++ z ++ imm ++ addr).extractLsb' (32 + (32 + (13 + 0))) 5 = rd := by
    rw [extract_high, extract_high, extract_high, extract_low]
  have h2 : (op ++ rs ++ rt ++ rd ++ z ++ imm ++ addr).extractLsb' (32 + (32 + (13 + (5 + 0)))) 5 = rt := by
    rw [extract_high, extract_high, extract_high, extract_high, extract_low]
  have h1 : (op ++ rs ++ rt ++ rd ++ z ++ imm ++ addr).extractLsb' (32 + (32 + (13 + (5 + (5 + 0))))) 5 = rs := by
    rw [extract_high, extract_high, extract_high, extract_high, extract_high, extract_low]
  have h0 : (op ++ rs ++ rt ++ rd ++ z ++ imm ++ addr).extractLsb' (32 + (32 + (13 + (5 + (5 + (5 + 0)))))) 4 = op := by
    rw [extract_high, extract_high, extract_high, extract_high, extract_high, extract_high, extract_all]
  simp only [unpack, pack, Fields.mk.injEq]
  exact ⟨h0, h1, h2, h3, h4, h5, h6⟩

/-- Neighbouring slices of a word joined again. -/
theorem extract_join (w : InstrWord) (s m n : Nat) :
    w.extractLsb' (s + n) m ++ w.extractLsb' s n = w.extractLsb' s (m + n) := by
  ext i hi
  simp only [BitVec.getElem_extractLsb', BitVec.getElem_append]
  split
  · rfl
  · congr 1
    omega

/-- The fields make up the whole word (R45). -/
@[simp] theorem pack_unpack (w : InstrWord) : pack (unpack w) = w := by
  have h := extract_all w
  have e1 := extract_join w 87 4 5
  have e2 := extract_join w 82 9 5
  have e3 := extract_join w 77 14 5
  have e4 := extract_join w 64 19 13
  have e5 := extract_join w 32 32 32
  have e6 := extract_join w 0 64 32
  simp only [Nat.reduceAdd] at e1 e2 e3 e4 e5 e6
  simp only [pack, unpack]
  rw [e1, e2, e3, e4, e5, e6]
  exact h

/-- The word of an instruction has the fields of the instruction. -/
@[simp] theorem unpack_encode (i : Instr) : unpack (encode i) = i.fields := unpack_pack i.fields

/-- The word as a number, field by field (R45). -/
theorem toNat_encode (i : Instr) :
    (encode i).toNat =
      (((((i.fields.opcode.toNat * 2 ^ 5 + i.fields.rs.toNat) * 2 ^ 5 + i.fields.rt.toNat) * 2 ^ 5 + i.fields.rd.toNat) *
        2 ^ 13 + i.fields.zero.toNat) * 2 ^ 32 + i.fields.imm.toNat) * 2 ^ 32 + i.fields.address.toNat := by
  unfold encode pack
  simp only [BitVec.toNat_append]
  rw [← Nat.shiftLeft_add_eq_or_of_lt (by omega), ← Nat.shiftLeft_add_eq_or_of_lt (by omega),
    ← Nat.shiftLeft_add_eq_or_of_lt (by omega), ← Nat.shiftLeft_add_eq_or_of_lt (by omega),
    ← Nat.shiftLeft_add_eq_or_of_lt (by omega), ← Nat.shiftLeft_add_eq_or_of_lt (by omega)]
  simp only [Nat.shiftLeft_eq]

/-- Two words with the same fields are one word. -/
theorem unpack_inj {v w : InstrWord} (h : unpack v = unpack w) : v = w := by
  rw [← pack_unpack v, ← pack_unpack w, h]

end Sys2Proof
end

