-- ==== Sys2Proof/Laws/Memory.lean ====
section
/-! SUPPORT. The laws of data memory: read after write, the canonical form, the address map. -/

namespace Sys2Proof.Machine

/-! ### The canonical form -/

theorem above_trans {a b : Nat} {m : Memory} (h : a ≤ b) (hb : Memory.above b m = true) : Memory.above a m = true := by
  induction m with
  | nil => rfl
  | cons c rest ih =>
    simp only [Memory.above, Bool.and_eq_true, decide_eq_true_eq] at hb ⊢
    exact ⟨by omega, ih hb.2⟩

theorem read_of_above {a k : Nat} {m : Memory} (h : Memory.above a m = true) (hk : k ≤ a) : Memory.read m k = 0#32 := by
  induction m with
  | nil => rfl
  | cons c rest ih =>
    simp only [Memory.above, Bool.and_eq_true, decide_eq_true_eq] at h
    have : c.1 ≠ k := by omega
    simp [Memory.read, this, ih h.2]

theorem above_cons {a k : Nat} {v : Word} {m : Memory} (hk : a < k) (h : Memory.above a m = true) :
    Memory.above a (Memory.cons k v m) = true := by
  unfold Memory.cons
  split
  · exact h
  · simp [Memory.above, hk, h]

theorem wf_cons {k : Nat} {v : Word} {m : Memory} (ha : Memory.above k m = true) (h : Memory.wf m = true) :
    Memory.wf (Memory.cons k v m) = true := by
  unfold Memory.cons
  split
  · exact h
  · next hv => simp [Memory.wf, hv, ha, h]

theorem above_write {a k : Nat} {v : Word} {m : Memory} (hk : a < k) (h : Memory.above a m = true) :
    Memory.above a (Memory.write m k v) = true := by
  induction m with
  | nil => exact above_cons hk rfl
  | cons c rest ih =>
    simp only [Memory.above, Bool.and_eq_true, decide_eq_true_eq] at h
    unfold Memory.write
    split
    · exact above_cons hk (by simp [Memory.above, h])
    · split
      · exact above_cons hk h.2
      · simp [Memory.above, h.1, ih h.2]

/-- A write keeps the canonical form. -/
theorem wf_write {k : Nat} {v : Word} {m : Memory} (h : Memory.wf m = true) : Memory.wf (Memory.write m k v) = true := by
  induction m with
  | nil => exact wf_cons rfl rfl
  | cons c rest ih =>
    have h' := h
    simp only [Memory.wf, Bool.and_eq_true, decide_eq_true_eq] at h
    unfold Memory.write
    split
    · next hlt =>
      exact wf_cons (by simp [Memory.above, hlt, above_trans (Nat.le_of_lt hlt) h.1.2]) h'
    · split
      · next e => exact wf_cons (e ▸ h.1.2) h.2
      · next h1 h2 => simp [Memory.wf, h.1.1, above_write (by omega : c.1 < k) h.1.2, ih h.2]

theorem below_write {b k : Nat} {v : Word} {m : Memory} (hk : k < b) (h : Memory.below b m = true) :
    Memory.below b (Memory.write m k v) = true := by
  have hc : ∀ m', Memory.below b m' = true → Memory.below b (Memory.cons k v m') = true := by
    intro m' hm'
    unfold Memory.cons
    split
    · exact hm'
    · simp [Memory.below, hk, hm']
  induction m with
  | nil => exact hc _ rfl
  | cons c rest ih =>
    have h' := h
    simp only [Memory.below, Bool.and_eq_true, decide_eq_true_eq] at h
    unfold Memory.write
    split
    · exact hc _ h'
    · split
      · exact hc _ h.2
      · simp [Memory.below, h.1, ih h.2]

/-! ### Read after write -/

theorem read_cons_same {k : Nat} {v : Word} {m : Memory} (ha : Memory.above k m = true) :
    Memory.read (Memory.cons k v m) k = v := by
  unfold Memory.cons
  split
  · next hv => rw [read_of_above ha (Nat.le_refl k), hv]
  · simp [Memory.read]

theorem read_cons_other {k j : Nat} {v : Word} {m : Memory} (hj : j ≠ k) :
    Memory.read (Memory.cons k v m) j = Memory.read m j := by
  unfold Memory.cons
  split
  · rfl
  · simp [Memory.read, Ne.symm hj]

/-- A read of the word just written gives the word. -/
theorem read_write_same_word {k : Nat} {v : Word} {m : Memory} (h : Memory.wf m = true) :
    Memory.read (Memory.write m k v) k = v := by
  induction m with
  | nil => exact read_cons_same rfl
  | cons c rest ih =>
    simp only [Memory.wf, Bool.and_eq_true, decide_eq_true_eq] at h
    unfold Memory.write
    split
    · next hlt =>
      exact read_cons_same (by simp [Memory.above, hlt, above_trans (Nat.le_of_lt hlt) h.1.2])
    · split
      · next e => exact read_cons_same (e ▸ h.1.2)
      · next h1 h2 => simp [Memory.read, Ne.symm h2, ih h.2]

/-- A write leaves every other word alone, in whatever form the list is. -/
theorem read_write_other_word {k j : Nat} {v : Word} {m : Memory} (hj : j ≠ k) :
    Memory.read (Memory.write m k v) j = Memory.read m j := by
  induction m with
  | nil => exact read_cons_other hj
  | cons c rest ih =>
    unfold Memory.write
    split
    · exact read_cons_other hj
    · split
      · next e => rw [read_cons_other hj]; simp [Memory.read, ← e, Ne.symm hj]
      · simp only [Memory.read, ih]

/-- Two canonical memories with the same reads are equal data. -/
theorem memory_ext : ∀ {m n : Memory}, Memory.wf m = true → Memory.wf n = true →
    (∀ k, Memory.read m k = Memory.read n k) → m = n
  | [], [], _, _, _ => rfl
  | [], (b, w) :: n, _, hn, h => by
    simp only [Memory.wf, Bool.and_eq_true, decide_eq_true_eq] at hn
    exact absurd (by simpa [Memory.read] using (h b).symm) hn.1.1
  | (a, v) :: m, [], hm, _, h => by
    simp only [Memory.wf, Bool.and_eq_true, decide_eq_true_eq] at hm
    exact absurd (by simpa [Memory.read] using h a) hm.1.1
  | (a, v) :: m, (b, w) :: n, hm, hn, h => by
    simp only [Memory.wf, Bool.and_eq_true, decide_eq_true_eq] at hm hn
    have hab : a = b := by
      rcases Nat.lt_trichotomy a b with hlt | e | hlt
      · have h1 := h a
        have hn0 : Memory.read n a = 0#32 := read_of_above hn.1.2 (Nat.le_of_lt hlt)
        simp [Memory.read, (Nat.ne_of_lt hlt).symm, hn0] at h1
        exact absurd h1 hm.1.1
      · exact e
      · have h1 := h b
        have hm0 : Memory.read m b = 0#32 := read_of_above hm.1.2 (Nat.le_of_lt hlt)
        simp [Memory.read, (Nat.ne_of_lt hlt).symm, hm0] at h1
        exact absurd h1.symm hn.1.1
    subst hab
    have hvw : v = w := by simpa [Memory.read] using h a
    subst hvw
    have htail : m = n := by
      refine memory_ext hm.2 hn.2 fun k => ?_
      by_cases hk : a = k
      · subst hk
        rw [read_of_above hm.1.2 (Nat.le_refl _), read_of_above hn.1.2 (Nat.le_refl _)]
      · simpa [Memory.read, hk] using h k
    rw [htail]

/-! ### The port -/

/-- The one word index an address names is inside the memory (R32, R33). -/
theorem place_lt {n : Nat} {a : Word} {k : Nat} (h : place n a = some k) : k < n := by
  unfold place at h
  split at h
  · next hr => cases h; omega
  · cases h

theorem memWrite_wf {n : Nat} {m : Memory} {a v : Word} (h : Memory.wf m = true) : Memory.wf (memWrite n m a v) = true := by
  unfold memWrite
  split
  · exact wf_write h
  · exact h

theorem memWrite_below {n : Nat} {m : Memory} {a v : Word} (h : Memory.below n m = true) :
    Memory.below n (memWrite n m a v) = true := by
  unfold memWrite
  split
  · next hp => exact below_write (place_lt hp) h
  · exact h

/-- A store changes no word but the one its address names. -/
theorem memWrite_other {n : Nat} {m : Memory} {a v : Word} {k : Nat} (h : place n a ≠ some k) :
    Memory.read (memWrite n m a v) k = Memory.read m k := by
  unfold memWrite
  split
  · next j hp => exact read_write_other_word (fun e => h (by rw [hp, e]))
  · rfl

/-- The reset memory is in the canonical form. -/
theorem reset_memory_wf : Memory.wf State.reset.mem = true := rfl

/-- The Memory stage keeps the canonical form. -/
theorem storeStage_wf {n : Nat} {m : Memory} {l : EMLatch} (h : Memory.wf m = true) :
    Memory.wf (storeStage n m l) = true := by
  unfold storeStage
  split <;> first | exact memWrite_wf h | exact h

theorem storeStage_below {n : Nat} {m : Memory} {l : EMLatch} (h : Memory.below n m = true) :
    Memory.below n (storeStage n m l) = true := by
  unfold storeStage
  split <;> first | exact memWrite_below h | exact h

end Sys2Proof.Machine
end

