-- ==== Sys2Proof/Laws/PerInstr.lean ====
section
/-! SUPPORT. Laws stated instruction by instruction: the opcode field of every encoding is the code of the opcode map (R50). -/

namespace Sys2Proof

/-- The code of the opcode map (R50). -/
def opcodeOf : Instr → BitVec 4
  | .nop => 0#4
  | .add _ _ _ => 1#4
  | .sub _ _ _ => 2#4
  | .mul _ _ _ => 3#4
  | .and _ _ _ => 4#4
  | .or _ _ _ => 5#4
  | .addi _ _ _ => 6#4
  | .sll _ _ _ => 7#4
  | .srl _ _ _ => 8#4
  | .lw _ _ _ => 9#4
  | .sw _ _ _ => 10#4
  | .beq _ _ _ => 11#4
  | .j _ => 12#4

end Sys2Proof

namespace Sys2Proof.Laws.OpcodeField

/-- Bits 95:92 of the word are the opcode code, and bits 76:64 are zero (R45, R50, R52). -/
def Statement (i : Instr) : Prop :=
  (unpack (encode i)).opcode = opcodeOf i ∧ (unpack (encode i)).zero = 0#13

theorem nop : Statement .nop := by simp [Statement, Instr.fields, opcodeOf]
theorem add (rd rs rt : Reg) : Statement (.add rd rs rt) := by simp [Statement, Instr.fields, opcodeOf]
theorem sub (rd rs rt : Reg) : Statement (.sub rd rs rt) := by simp [Statement, Instr.fields, opcodeOf]
theorem mul (rd rs rt : Reg) : Statement (.mul rd rs rt) := by simp [Statement, Instr.fields, opcodeOf]
theorem and (rd rs rt : Reg) : Statement (.and rd rs rt) := by simp [Statement, Instr.fields, opcodeOf]
theorem or (rd rs rt : Reg) : Statement (.or rd rs rt) := by simp [Statement, Instr.fields, opcodeOf]
theorem addi (rt rs : Reg) (imm : Word) : Statement (.addi rt rs imm) := by simp [Statement, Instr.fields, opcodeOf]
theorem sll (rd rt : Reg) (shamt : Word) : Statement (.sll rd rt shamt) := by simp [Statement, Instr.fields, opcodeOf]
theorem srl (rd rt : Reg) (shamt : Word) : Statement (.srl rd rt shamt) := by simp [Statement, Instr.fields, opcodeOf]
theorem lw (rt base : Reg) (offset : Word) : Statement (.lw rt base offset) := by
  simp [Statement, Instr.fields, opcodeOf]
theorem sw (rt base : Reg) (offset : Word) : Statement (.sw rt base offset) := by
  simp [Statement, Instr.fields, opcodeOf]
theorem beq (rs rt : Reg) (address : Word) : Statement (.beq rs rt address) := by
  simp [Statement, Instr.fields, opcodeOf]
theorem j (address : Word) : Statement (.j address) := by simp [Statement, Instr.fields, opcodeOf]

end Sys2Proof.Laws.OpcodeField
end

