-- ==== Sys2Proof/Laws/State.lean ====
section
/-! SUPPORT. One lemma per field for each update of State, so that no proof unfolds a record update. -/

namespace Sys2Proof.Machine

/-! ### Steps 1 to 5 of a cycle -/

section advance
variable (i : Instr) (r : Word) (f : Fetched) (s : State)

@[simp] theorem advance_regs : (advance i r f s).regs = writeBack s.mw s.regs := rfl
@[simp] theorem advance_mem : (advance i r f s).mem = storeStage s.memSize s.mem s.em := rfl
@[simp] theorem advance_mw : (advance i r f s).mw = memoryStage s.memSize s.mem s.em := rfl
@[simp] theorem advance_em : (advance i r f s).em = ⟨i, r, s.de.rtVal⟩ := rfl
@[simp] theorem advance_de : (advance i r f s).de = decodeStage (writeBack s.mw s.regs) s.fd.instr := rfl
@[simp] theorem advance_fd : (advance i r f s).fd = f.latch := rfl
@[simp] theorem advance_pc : (advance i r f s).pc = f.pc := rfl
@[simp] theorem advance_cycles : (advance i r f s).cycles = s.cycles + 1 := rfl
@[simp] theorem advance_prog : (advance i r f s).prog = s.prog := rfl
@[simp] theorem advance_memSize : (advance i r f s).memSize = s.memSize := rfl
@[simp] theorem advance_srlFill : (advance i r f s).srlFill = s.srlFill := rfl

end advance

/-! ### The flush -/

section flush
variable (b : Branch) (t : Word) (s : State)

@[simp] theorem flush_none : flush none s = s := rfl
@[simp] theorem flush_some_pc : (flush (some t) s).pc = t := rfl
@[simp] theorem flush_some_fd : (flush (some t) s).fd = FDLatch.empty := rfl
@[simp] theorem flush_some_de : (flush (some t) s).de = DELatch.empty := rfl
@[simp] theorem flush_regs : (flush b s).regs = s.regs := by cases b <;> rfl
@[simp] theorem flush_mem : (flush b s).mem = s.mem := by cases b <;> rfl
@[simp] theorem flush_em : (flush b s).em = s.em := by cases b <;> rfl
@[simp] theorem flush_mw : (flush b s).mw = s.mw := by cases b <;> rfl
@[simp] theorem flush_cycles : (flush b s).cycles = s.cycles := by cases b <;> rfl
@[simp] theorem flush_prog : (flush b s).prog = s.prog := by cases b <;> rfl
@[simp] theorem flush_memSize : (flush b s).memSize = s.memSize := by cases b <;> rfl
@[simp] theorem flush_srlFill : (flush b s).srlFill = s.srlFill := by cases b <;> rfl

end flush

/-! ### Reset and the placing of a word -/

section host
variable (s : State) (w : InstrWord)

@[simp] theorem resetCore_prog : s.resetCore.prog = s.prog := rfl
@[simp] theorem resetCore_memSize : s.resetCore.memSize = s.memSize := rfl
@[simp] theorem resetCore_srlFill : s.resetCore.srlFill = s.srlFill := rfl
@[simp] theorem resetCore_regs : s.resetCore.regs = State.reset.regs := rfl
@[simp] theorem resetCore_pc : s.resetCore.pc = 0#32 := rfl
@[simp] theorem resetCore_mem : s.resetCore.mem = [] := rfl
@[simp] theorem resetCore_fd : s.resetCore.fd = FDLatch.empty := rfl
@[simp] theorem resetCore_de : s.resetCore.de = DELatch.empty := rfl
@[simp] theorem resetCore_em : s.resetCore.em = EMLatch.empty := rfl
@[simp] theorem resetCore_mw : s.resetCore.mw = MWLatch.empty := rfl
@[simp] theorem resetCore_cycles : s.resetCore.cycles = 0 := rfl

@[simp] theorem withWord_prog : (s.withWord w).prog = (placeWord s.prog s.pc w).1 := rfl
@[simp] theorem withWord_pc : (s.withWord w).pc = (placeWord s.prog s.pc w).2 := rfl
@[simp] theorem withWord_de : (s.withWord w).de = latchWord s.regs w := rfl
@[simp] theorem withWord_regs : (s.withWord w).regs = s.regs := rfl
@[simp] theorem withWord_mem : (s.withWord w).mem = s.mem := rfl
@[simp] theorem withWord_fd : (s.withWord w).fd = s.fd := rfl
@[simp] theorem withWord_em : (s.withWord w).em = s.em := rfl
@[simp] theorem withWord_mw : (s.withWord w).mw = s.mw := rfl

end host

end Sys2Proof.Machine
end

