-- ==== Sys2Proof/Laws/Pipeline.lean ====
section
/-! SUPPORT. What a cycle and a step can do, said once: `exec` as a clock cycle, fetching from a well-formed image, and the
inversion lemmas of `clock`, `exec` and `step`. -/

namespace Sys2Proof

/-! ### Well-formed images -/

theorem decode_wellFormed {w : InstrWord} {i : Instr} (h : decode w = .ok i) : i.wellFormed = true := by
  unfold decode decodeFields at h
  split at h <;>
    (try simp only [decodeN, decodeR, decodeIM, decodeS, decodeB, decodeJ] at h) <;>
    (repeat' split at h) <;>
    first
      | cases h; rfl
      | (cases h; simpa [Instr.wellFormed])
      | cases h

theorem checkWords_ok {n : Nat} {ws : List InstrWord} (h : checkWords n ws = .ok ()) :
    ∀ w ∈ ws, ∃ i, decode w = .ok i := by
  induction ws generalizing n with
  | nil => simp
  | cons w ws ih =>
    unfold checkWords at h
    split at h
    · next i hi => exact List.forall_mem_cons.2 ⟨⟨i, hi⟩, ih h⟩
    · cases h

theorem checkWords_of_decodes {n : Nat} {ws : List InstrWord} (h : ∀ w ∈ ws, ∃ i, decode w = .ok i) :
    checkWords n ws = .ok () := by
  induction ws generalizing n with
  | nil => rfl
  | cons w ws ih =>
    obtain ⟨⟨i, hi⟩, hr⟩ := List.forall_mem_cons.1 h
    simp only [checkWords, hi, ih hr]

/-- An image is well-formed exactly when it is short enough and every word decodes (R56). -/
theorem imageOk_iff {image : List InstrWord} :
    imageOk image = true ↔ image.length ≤ Config.maxProgLen ∧ ∀ w ∈ image, ∃ i, decode w = .ok i := by
  unfold imageOk checkImage
  by_cases hl : image.length ≤ Config.maxProgLen
  · simp only [if_pos hl]
    constructor
    · intro h
      split at h
      · next u hu => exact ⟨hl, checkWords_ok (by cases u; exact hu)⟩
      · cases h
    · intro h
      rw [checkWords_of_decodes h.2]
  · simp [hl]

theorem checkImage_of_imageOk {image : List InstrWord} (h : imageOk image = true) : checkImage image = .ok () := by
  unfold imageOk at h
  split at h
  · next hu => exact hu
  · cases h

end Sys2Proof

namespace Sys2Proof.Machine

/-! ### Fetch -/

theorem wordAt_mem {prog : List InstrWord} {pc : Word} {w : InstrWord} (h : wordAt prog pc = some w) : w ∈ prog := by
  unfold wordAt at h
  split at h
  · exact List.mem_of_getElem? h
  · cases h

/-- A word at `pc` means `pc` is inside the program (R44). -/
theorem inBounds_of_wordAt {prog : List InstrWord} {pc : Word} {w : InstrWord} (h : wordAt prog pc = some w) :
    0 ≤ pc.toInt ∧ pc.toInt < prog.length := by
  unfold wordAt at h
  split at h
  · next hb => simpa [pcInBounds] using hb
  · cases h

/-- Inside an admitted image the increment of `pc` does not overflow (R14). -/
theorem toInt_pc_add_one {pc : Word} {n : Nat} (h0 : 0 ≤ pc.toInt) (h1 : pc.toInt < n) (hn : n ≤ Config.maxProgLen) :
    (pc + 1#32).toInt = pc.toInt + 1 := by
  have hp := BitVec.toInt_eq_toNat_cond (x := pc)
  have hq := BitVec.toInt_eq_toNat_cond (x := pc + 1#32)
  have h1' : (1#32).toNat = 1 := rfl
  rw [BitVec.toNat_add, h1'] at hq
  have hlt := pc.isLt
  have hm : Config.maxProgLen = 2147483647 := rfl
  split at hp
  · split at hq <;> omega
  · omega

/-- The only instruction that is not valid is NOP (R49). -/
theorem valid_eq_false {i : Instr} : i.valid = false ↔ i = .nop := by
  constructor
  · intro h
    cases i <;> first | rfl | cases h
  · rintro rfl
    rfl

/-- Everything Fetch can deliver (R77). -/
theorem fetchStage_cases {prog : List InstrWord} {pc : Word} {f : Fetched} (h : fetchStage prog pc = .ok f) :
    (wordAt prog pc = none ∧ f = ⟨FDLatch.empty, pc⟩) ∨
    (∃ w i, wordAt prog pc = some w ∧ decode w = .ok i ∧ f = ⟨⟨i, pc + 1#32⟩, pc + 1#32⟩) := by
  unfold fetchStage at h
  split at h
  · next hw => cases h; exact .inl ⟨hw, rfl⟩
  · next w hw =>
    split at h
    · next i hi => cases h; exact .inr ⟨w, i, hw, hi, rfl⟩
    · cases h

/-- On a well-formed image Fetch always delivers (R77, R113). -/
theorem fetchStage_ok {prog : List InstrWord} (h : imageOk prog = true) (pc : Word) :
    ∃ f, fetchStage prog pc = .ok f := by
  unfold fetchStage
  split
  · exact ⟨_, rfl⟩
  · next w hw =>
    obtain ⟨i, hi⟩ := (imageOk_iff.1 h).2 w (wordAt_mem hw)
    exact ⟨⟨⟨i, pc + 1#32⟩, pc + 1#32⟩, by simp only [hi]⟩

/-! ### Execute -/

/-- `exec` of any instruction is one clock cycle with its ALU result and its branch decision. -/
theorem exec_eq_clock (i : Instr) (s : State) : exec i s = clock i (aluResult i s) (branchOf i s.de) s := by
  cases i <;> rfl

theorem aluResult_computesNothing {i : Instr} {s : State} (h : computesNothing i = true) : aluResult i s = 0#32 := by
  cases i <;> first | rfl | cases h

/-- A branch target comes from a BEQ or J, so it is an admitted one (R56 check 5). -/
theorem branchOf_target {i : Instr} {l : DELatch} {t : Word} (hw : i.wellFormed = true) (h : branchOf i l = some t) :
    0 ≤ t.toInt := by
  cases i <;> simp only [branchOf, beqBranch] at h <;> (try split at h) <;> cases h <;>
    simpa [Instr.wellFormed, targetOk] using hw

/-! ### Inversion lemmas -/

/-- Everything a cycle can do. -/
theorem clock_next_iff {i : Instr} {r : Word} {b : Branch} {s t : State} :
    clock i r b s = .next t ↔ ∃ f, fetchStage s.prog s.pc = .ok f ∧ t = flush b (advance i r f s) := by
  unfold clock
  cases h : fetchStage s.prog s.pc with
  | ok f => simp [eq_comm]
  | error e => simp

theorem exec_next_iff {i : Instr} {s t : State} :
    exec i s = .next t ↔
      ∃ f, fetchStage s.prog s.pc = .ok f ∧ t = flush (branchOf i s.de) (advance i (aluResult i s) f s) := by
  rw [exec_eq_clock, clock_next_iff]

/-- On a well-formed image every instruction takes a next state. -/
theorem exec_completes {s : State} (h : imageOk s.prog = true) (i : Instr) :
    ∃ f, fetchStage s.prog s.pc = .ok f ∧
      exec i s = .next (flush (branchOf i s.de) (advance i (aluResult i s) f s)) := by
  obtain ⟨f, hf⟩ := fetchStage_ok h s.pc
  exact ⟨f, hf, exec_next_iff.2 ⟨f, hf, rfl⟩⟩

theorem step_running {s : State} (h : imageOk s.prog = true) (hh : halted s = false) : step s = exec s.de.instr s := by
  simp [step, checkImage_of_imageOk h, hh]

theorem step_halted {s : State} (h : imageOk s.prog = true) (hh : halted s = true) : step s = .next s := by
  simp [step, checkImage_of_imageOk h, hh]

/-- Everything a step can do. -/
theorem step_cases {s t : State} (h : step s = .next t) :
    imageOk s.prog = true ∧ ((halted s = true ∧ t = s) ∨ (halted s = false ∧ exec s.de.instr s = .next t)) := by
  unfold step at h
  split at h
  · cases h
  · next hi =>
    refine ⟨by simp [imageOk, hi], ?_⟩
    split at h
    · next hh => cases h; exact .inl ⟨hh, rfl⟩
    · next hh => exact .inr ⟨by simpa using hh, h⟩

/-- A valid instruction in a latch keeps the machine running (R136). -/
theorem not_halted_of_em {s : State} (h : s.em.instr.valid = true) : halted s = false := by simp [halted, h]
theorem not_halted_of_mw {s : State} (h : s.mw.instr.valid = true) : halted s = false := by simp [halted, h]
theorem not_halted_of_de {s : State} (h : s.de.instr.valid = true) : halted s = false := by simp [halted, h]
theorem not_halted_of_fd {s : State} (h : s.fd.instr.valid = true) : halted s = false := by simp [halted, h]

end Sys2Proof.Machine
end

