-- ==== Sys2Proof/Laws/Registers.lean ====
section
/-! SUPPORT. The laws of the register file: read after write, register 0. -/

namespace Sys2Proof.Machine

variable (x : RegFile) (r q : Reg) (v : Word)

@[simp] theorem read_zero : RegFile.read x 0#5 = 0#32 := by simp [RegFile.read]

@[simp] theorem write_zero : RegFile.write x 0#5 v = x := by simp [RegFile.write]

theorem slot_inj {r q : Reg} (hr : r ≠ 0#5) (hq : q ≠ 0#5) (h : slot r = slot q) : r = q := by
  have h1 : r.toNat - 1 = q.toNat - 1 := congrArg Fin.val h
  have h2 : r.toNat ≠ 0 := fun e => hr (BitVec.eq_of_toNat_eq (by simpa using e))
  have h3 : q.toNat ≠ 0 := fun e => hq (BitVec.eq_of_toNat_eq (by simpa using e))
  exact BitVec.eq_of_toNat_eq (by omega)

theorem read_write_same (h : r ≠ 0#5) : RegFile.read (RegFile.write x r v) r = v := by
  simp [RegFile.read, RegFile.write, h]

theorem read_write_other (h : q ≠ r) : RegFile.read (RegFile.write x r v) q = RegFile.read x q := by
  by_cases hq : q = 0#5
  · simp [hq]
  by_cases hr : r = 0#5
  · simp [hr]
  have hs : (slot r).val ≠ (slot q).val := fun e => h (slot_inj hq hr (Fin.ext e).symm)
  have hset : (x.set (slot r) v)[slot q] = x[slot q] := Vector.getElem_set_ne _ _ hs
  simpa [RegFile.read, RegFile.write, hq, hr] using hset

/-- What a read after a write gives, register 0 included. -/
theorem read_write :
    RegFile.read (RegFile.write x r v) q = if q = r ∧ r ≠ 0#5 then v else RegFile.read x q := by
  by_cases h : q = r
  · by_cases h0 : r = 0#5
    · subst h; subst h0; simp
    · subst h; simp only [true_and]; rw [if_pos h0]; exact read_write_same x q v h0
  · rw [if_neg (fun e => h e.1)]; exact read_write_other x r q v h

/-- Two register files with the same reads are equal: the stored registers are exactly those a read can see. -/
theorem regFile_ext {x y : RegFile} (h : ∀ r, RegFile.read x r = RegFile.read y r) : x = y := by
  apply Vector.ext
  intro i hi
  have hr : BitVec.ofNat 5 (i + 1) ≠ 0#5 := by
    intro e
    have := congrArg BitVec.toNat e
    simp at this
    omega
  have hs : (slot (BitVec.ofNat 5 (i + 1))).val = i := by simp [slot]; omega
  have := h (BitVec.ofNat 5 (i + 1))
  rw [RegFile.read, RegFile.read, if_neg hr, if_neg hr] at this
  simpa [Fin.getElem_fin, hs] using this

end Sys2Proof.Machine
end

