-- ==== Sys2Proof/Tests/Slice0.lean ====
section
/-! SUPPORT. Tests: the decoder against words of the spec, ill-formed terms, one or two cycles per instruction against the vectors of
spec/95_test_vectors.md, and a witness for the hypotheses of every statement. -/

namespace Sys2Proof.Machine

/-! ### Helpers -/

/-- A loaded machine of four words, `MEM_SIZE` 64: `ADDI $t0,$zero,5`, `J 3`, `NOP`, `ADD $t1,$t0,$t0`. -/
def demo : State :=
  { State.reset with prog := [0x602000000000000500000000#96, 0xC00000000000000000000003#96, 0#96, 0x142120000000000000000000#96],
                     memSize := 64 }

/-- `demo` with the given instruction and values in latch DE. -/
def inDE (i : Instr) (a b m : Word) : State := { demo with de := ⟨i, a, b, m⟩ }

/-- The state after one cycle with `i` in Execute, and a field of it. -/
def after {α : Type} (i : Instr) (s : State) (get : State → α) : Option α :=
  match exec i s with
  | .next t => some (get t)
  | .fault _ => none
  | .refused _ => none

def aluOf (s : State) : Word := s.em.aluResult

/-! ### Well-formedness: each check refuses an ill-formed term -/

theorem test_shift_amount_checked : Instr.wellFormed (.sll 8 9 32#32) = false := by decide
theorem test_shift_amount_negative : Instr.wellFormed (.srl 8 9 (-1#32)) = false := by decide
theorem test_branch_target_checked : Instr.wellFormed (.beq 8 9 (-1#32)) = false := by decide
theorem test_jump_target_checked : Instr.wellFormed (.j (-1#32)) = false := by decide
theorem test_shift_amount_31_admitted : Instr.wellFormed (.sll 8 9 31#32) = true := by decide
theorem test_image_too_short_is_fine : imageOk [] = true := by decide
theorem test_image_with_reserved_opcode : checkImage [0#96, 0xD00000000000000000000000#96] =
    .error (.illFormedWord 1 .reservedOpcode) := by decide

/-! ### Decoding: a word for every constructor. The first of each family is written bit by bit from R45 and opcode_table.json, the
others are words the spec prints. -/

theorem test_decode_nop : decode 0#96 = .ok .nop := by decide
/-- `ADD $t2, $t0, $t1`: opcode 0001, rs 01000, rt 01001, rd 01010 (R90). -/
theorem test_decode_add_bits :
    decode (0b000101000010010101000000000000000000000000000000000000000000000000000000000000000000000000000000#96) =
      .ok (.add 10 8 9) := by decide
theorem test_decode_sub : decode 0x242540000000000000000000#96 = .ok (.sub 10 8 9) := by decide
theorem test_decode_mul : decode 0x342540000000000000000000#96 = .ok (.mul 10 8 9) := by decide
theorem test_decode_and : decode 0x442540000000000000000000#96 = .ok (.and 10 8 9) := by decide
theorem test_decode_or : decode 0x542540000000000000000000#96 = .ok (.or 10 8 9) := by decide
/-- `ADDI $t0, $t0, -1`: opcode 0110, rs 01000, rt 01000, imm all ones (R68). -/
theorem test_decode_addi_bits :
    decode (0b011001000010000000000000000000001111111111111111111111111111111100000000000000000000000000000000#96) =
      .ok (.addi 8 8 (-1#32)) := by decide
/-- `SLL $t2, $t1, 4`: opcode 0111, rt 01001, rd 01010, imm 4 (R96). -/
theorem test_decode_sll_bits :
    decode (0b011100000010010101000000000000000000000000000000000000000000010000000000000000000000000000000000#96) =
      .ok (.sll 10 9 4#32) := by decide
theorem test_decode_srl : decode 0x802540000000000400000000#96 = .ok (.srl 10 9 4#32) := by decide
/-- `LW $t1, 4($t0)`: opcode 1001, base 01000, rt 01001, imm 4 (R98). -/
theorem test_decode_lw_bits :
    decode (0b100101000010010000000000000000000000000000000000000000000000010000000000000000000000000000000000#96) =
      .ok (.lw 9 8 4#32) := by decide
theorem test_decode_sw : decode 0xA02000000000000000000000#96 = .ok (.sw 8 0 0#32) := by decide
/-- `BEQ $t0, $t0, 3`: opcode 1011, rs 01000, rt 01000, address 3 (R100). -/
theorem test_decode_beq_bits :
    decode (0b101101000010000000000000000000000000000000000000000000000000000000000000000000000000000000000011#96) =
      .ok (.beq 8 8 3#32) := by decide
theorem test_decode_j : decode 0xC00000000000000000000004#96 = .ok (.j 4#32) := by decide
theorem test_decode_unused_field : decode 0x142540010000000000000000#96 = .error .unusedFieldNotZero := by decide
theorem test_decode_shift_32 : decode 0x702540000000002000000000#96 = .error .shiftAmountOutOfRange := by decide
theorem test_decode_unresolved_label : decode 0xC000000000000000FFFFFFFF#96 = .error .negativeTarget := by decide
theorem test_decode_reserved : decode 0xF00000000000000000000000#96 = .error .reservedOpcode := by decide
theorem test_decodeTableWord_j : decodeTableWord 96 0xC00000000000000000000004 = some (.j 4#32) := by decide

/-! ### Execute: vectors E of section 2.1 -/

/-- E2. -/
theorem test_add_wraps : after (.add 10 8 9) (inDE (.add 10 8 9) 0x7FFFFFFF 1 0) aluOf = some 0x80000000#32 := by decide
/-- E6. -/
theorem test_sub_order : after (.sub 10 8 9) (inDE (.sub 10 8 9) 3 5 0) aluOf = some (-2#32) := by decide
/-- E16. -/
theorem test_mul_low_word :
    after (.mul 10 8 9) (inDE (.mul 10 8 9) 0x12345678 0x9ABCDEF0 0) aluOf = some 0x242D2080#32 := by decide
/-- E17. -/
theorem test_and : after (.and 10 8 9) (inDE (.and 10 8 9) 0x0F0F0F0F 0x00FF00FF 0) aluOf = some 0x000F000F#32 := by decide
/-- E20. -/
theorem test_or : after (.or 10 8 9) (inDE (.or 10 8 9) 0x0F0F0F0F 0x00FF00FF 0) aluOf = some 0x0FFF0FFF#32 := by decide
/-- E23. -/
theorem test_addi : after (.addi 9 8 (-7#32)) (inDE (.addi 9 8 (-7#32)) 5 0 (-7#32)) aluOf = some (-2#32) := by decide
/-- E30 and E27: bits shifted out are lost. -/
theorem test_sll_loses : after (.sll 9 8 2) (inDE (.sll 9 8 2) 0 0x40000000 2) aluOf = some 0#32 := by decide
theorem test_sll_31 : after (.sll 9 8 31) (inDE (.sll 9 8 31) 0 1 31) aluOf = some 0x80000000#32 := by decide
/-- E38, both fills. -/
theorem test_srl_zero_fill : after (.srl 9 8 8) (inDE (.srl 9 8 8) 0 0x87654321 8) aluOf = some 0x00876543#32 := by decide
theorem test_srl_sign_fill :
    after (.srl 9 8 8) { inDE (.srl 9 8 8) 0 0x87654321 8 with srlFill := .sign } aluOf = some 0xFF876543#32 := by decide
/-- E39. -/
theorem test_lw_address : after (.lw 9 8 (-8#32)) (inDE (.lw 9 8 (-8#32)) 252 0 (-8#32)) aluOf = some 244#32 := by decide
/-- E40: the sum wraps, the data is carried. -/
theorem test_sw_address_and_data :
    after (.sw 9 8 1) (inDE (.sw 9 8 1) 0x7FFFFFFF 7 1) (fun t => (t.em.aluResult, t.em.rtVal)) =
      some (0x80000000#32, 7#32) := by decide
/-- E41. -/
theorem test_beq_taken : after (.beq 8 9 3) (inDE (.beq 8 9 3) 4 4 0) (fun t => (t.pc, t.de)) =
    some (3#32, DELatch.empty) := by decide
/-- E42. -/
theorem test_beq_not_taken : after (.beq 8 9 3) (inDE (.beq 8 9 3) 4 (-4#32) 0) (fun t => (t.pc, t.fd.instr)) =
    some (1#32, .addi 8 0 5#32) := by decide
/-- E44, with the register write of the cycle (R115). -/
theorem test_j_redirects :
    after (.j 4) { inDE (.j 4) 0 0 0 with mw := ⟨.addi 8 0 1, 1, 0, 0⟩ } (fun t => (t.pc, t.fd, t.reg 8)) =
      some (4#32, FDLatch.empty, 1#32) := by decide
/-- E45. -/
theorem test_nop : after .nop (inDE .nop 0 0 0) (fun t => (t.em, t.pc, t.cycles)) = some (EMLatch.empty, 1#32, 1) := by decide

/-! ### Memory and Write-Back -/

/-- M9 and M11: -1 names word 0, -4 no word. -/
theorem test_place_minus_one : place 64 (-1#32) = some 0 := by decide
theorem test_place_minus_four : place 64 (-4#32) = none := by decide
/-- M6 and M7. -/
theorem test_place_top : place 64 255#32 = some 63 ∧ place 64 256#32 = none := by decide
/-- A store of EM lands in memory; the word 0 it overwrites leaves the list. -/
theorem test_store_stage : after .nop { inDE .nop 0 0 0 with em := ⟨.sw 8 0 7, 7, 0⟩, mem := [(1, 22)] } (fun t => t.mem) =
    some [] := by decide
/-- The Memory stage of LW. -/
theorem test_load_stage : after .nop { inDE .nop 0 0 0 with em := ⟨.lw 8 0 5, 5, 0⟩, mem := [(1, 22)] }
    (fun t => t.mw.memData) = some 22#32 := by decide
/-- P7: a result for register 0 is discarded. -/
theorem test_write_back_zero : after .nop { inDE .nop 0 0 0 with mw := ⟨.addi 0 0 77, 77, 0, 0⟩ } (fun t => t.regs) =
    some demo.regs := by decide
/-- P1b, cycle 6: Decode reads what Write-Back writes in the same cycle (R72). -/
theorem test_same_cycle_read :
    after .nop { inDE .nop 0 0 0 with mw := ⟨.addi 9 0 3, 3, 0, 0⟩, fd := ⟨.add 10 8 9, 5⟩ } (fun t => t.de.rtVal) =
      some 3#32 := by decide

/-! ### The worked cycle (R84) -/

/-- R84: cycle 4 of program P3. -/
theorem test_worked_cycle :
    after (.beq 8 8 3)
      { demo with pc := 3, fd := ⟨.addi 9 0 99, 3⟩, de := ⟨.beq 8 8 3, 0, 0, 0⟩, em := ⟨.addi 8 0 1, 1, 0⟩ }
      (fun t => (t.pc, t.fd, t.de, t.em, t.mw)) =
    some (3#32, FDLatch.empty, DELatch.empty, ⟨.beq 8 8 3, 0, 0⟩, ⟨.addi 8 0 1, 1, 0, 0⟩) := by decide

/-! ### Steps, loading, the assembler -/

/-- L1: an empty program is halted at once, and stays. -/
theorem test_reset_halted : halted State.reset = true := by decide
theorem test_fetch_word_runs :
    (match step (State.reset.withFetchWord 96 0xC00000000000000000000004) with
     | .next t => some (t.pc, t.em.instr)
     | _ => none) = some (4#32, .j 4#32) := by decide
theorem test_step_refuses_ill_formed :
    (match step { State.reset with prog := [0xD00000000000000000000000#96] } with
     | .refused r => some r
     | _ => none) = some (.illFormedImage (.illFormedWord 0 .reservedOpcode)) := by decide
theorem test_load_needs_memory : load [] 0 .zero = .error .memSizeNotPositive := by decide
/-- Source example 3, program P3. -/
theorem test_assemble_example :
    assemble ["ADDI $t0,$zero,1".toList, "BEQ $t0,$t0,done".toList, "ADDI $t1,$zero,99".toList,
        "done: ADDI $t2,$zero,7  # end".toList] =
      .ok [0x602000000000000100000000#96, 0xB42000000000000000000003#96, 0x602400000000006300000000#96,
        0x602800000000000700000000#96] := by decide
theorem test_assemble_memory_operand : asmLine [] "SW $t1, -4($t0)".toList = .ok (.sw 9 8 (-4#32)) := by decide
/-- The model's choice (log 16): empty tokens are dropped; a line of commas becomes the bubble, at an index of its own. -/
theorem test_assemble_empty_tokens :
    assemble [", ADD $1,,$2,$3".toList, " ,".toList, "  ".toList] = .ok [encode (.add 1 2 3), 0#96] := by decide
theorem test_assemble_duplicate_label : assemble ["a: NOP".toList, "a: NOP".toList] = .error .duplicateLabel := by decide
theorem test_assemble_unresolved : assemble ["J a".toList] = .error .unresolvedLabel := by decide
/-- R122: the report gives `x[8]` and the word in DE. -/
theorem test_report :
    ((inDE (.j 4) 0 0 0).report 2).deWord = 0xC00000000000000000000004#96 ∧
      ((inDE (.j 4) 0 0 0).report 2).memory = [0#32, 0#32] ∧ State.reset.outputs.isSome = true := by decide

/-! ### Witnesses: a concrete state that meets the hypotheses of each statement -/

/-- `ADDI $t0,$zero,5` in DE, `SW` in EM, a write of `$t1` in MW, a consumer of `$t1` in FD. -/
def busy : State :=
  { demo with pc := 2, fd := ⟨.add 10 9 9, 2⟩, de := ⟨.addi 8 0 5, 0, 0, 5⟩, em := ⟨.sw 8 0 4, 4, 22⟩,
              mw := ⟨.addi 9 0 3, 3, 0, 0⟩ }

/-- A BEQ about to be taken. -/
def branching : State := { demo with de := ⟨.beq 8 8 3, 0, 0, 0⟩ }

theorem demo_image : imageOk demo.prog = true := by decide
theorem demo_running : halted demo = false := by decide

theorem witness_ResetClearsTheMachine : ∃ s, load demo.prog 64 .zero = .ok s := ⟨_, rfl⟩
theorem witness_RejectedImageNeverRuns :
    imageOk [0xE00000000000000000000000#96] = false ∧ imageOk [0xC000000000000000FFFFFFFF#96] = false := by decide
theorem witness_AdmittedImageAlwaysSteps : demo.Safe := demo_image
theorem reset_meets_invariant : State.reset.Inv := ⟨by decide, by decide, by decide, by decide, by decide, by decide, by decide, by decide⟩
theorem demo_meets_invariant : demo.Inv := ⟨by decide, by decide, by decide, by decide, by decide, by decide, by decide, by decide⟩
theorem witness_HaltedIsAFixedPoint :
    State.reset.Inv ∧ halted State.reset = true ∧ imageOk State.reset.prog = true ∧ ∃ s, load [] 64 .zero = .ok s :=
  ⟨reset_meets_invariant, by decide, by decide, _, rfl⟩
theorem witness_HaltIsFinal : imageOk State.reset.prog = true ∧ halted State.reset = true := by decide
theorem witness_CycleCounterCounts :
    (∃ t, exec (.addi 8 0 5) busy = .next t) ∧ (∃ t, step busy = .next t) ∧ ∃ t, step State.reset = .next t :=
  ⟨⟨_, rfl⟩, ⟨_, rfl⟩, ⟨_, rfl⟩⟩
theorem witness_StepExecutesLatchedInstruction :
    imageOk demo.prog = true ∧ halted demo = false ∧ demo.prog.length < Config.maxProgLen ∧
      0x142540000000000000000000 < 2 ^ 96 ∧ decode (BitVec.ofNat 96 0x142540000000000000000000) = .ok (.add 10 8 9) := by decide
theorem witness_FetchedWordReachesExecute :
    wordAt demo.prog demo.pc = some 0x602000000000000500000000#96 ∧
    decode 0x602000000000000500000000#96 = .ok (.addi 8 0 5) ∧ branchNow demo = none ∧
    ∃ t1, step demo = .next t1 ∧ branchNow t1 = none ∧ ∃ t2, step t1 = .next t2 ∧ halted t2 = false :=
  ⟨by decide, by decide, rfl, _, rfl, rfl, _, rfl, rfl⟩
theorem witness_RegisterZeroIsHardWired :
    dest ({ busy with mw := ⟨.addi 0 0 77, 77, 0, 0⟩ } : State).mw.instr = some 0#5 ∧
      ∃ t, exec .nop { busy with mw := ⟨.addi 0 0 77, 77, 0, 0⟩ } = .next t := ⟨by decide, _, rfl⟩
theorem witness_WriteBackCommits : ∃ t, exec (.addi 8 0 5) busy = .next t ∧ t.reg 9 = 3#32 := ⟨_, rfl, by decide⟩
theorem witness_MemoryStageAccesses : ∃ t, exec (.addi 8 0 5) busy = .next t ∧ t.word 1 = 22#32 := ⟨_, rfl, by decide⟩
theorem witness_FetchAdvances :
    imageOk busy.prog = true ∧ branchOf (.addi 8 0 5) busy.de = none ∧
      pcInBounds busy.prog busy.pc = true ∧ pcInBounds busy.prog 4#32 = false ∧ pcInBounds busy.prog 3#32 = true := by decide
theorem witness_FlushDiscardsTwoSlots :
    imageOk branching.prog = true ∧ branchOf branching.de.instr branching.de = some 3#32 := by decide
theorem witness_PcChangesInTwoWays :
    imageOk branching.prog = true ∧ (∃ t, exec branching.de.instr branching = .next t ∧ t.pc = 3#32) ∧
      ∃ t, exec .nop { demo with pc := 4 } = .next t ∧ t.pc = 4#32 := ⟨by decide, ⟨_, rfl, rfl⟩, _, rfl, rfl⟩
theorem witness_CycleFrame :
    (∃ t, exec (.addi 8 0 5) busy = .next t) ∧ dest busy.mw.instr ≠ some 8#5 ∧
      place busy.memSize busy.em.aluResult ≠ some 0 := ⟨⟨_, rfl⟩, by decide, by decide⟩
theorem witness_BubbleChangesNothing :
    (∃ t, exec .nop demo = .next t) ∧ demo.mw.instr.valid = false ∧ demo.em.instr.valid = false ∧
      Instr.valid .nop = false ∧ demo.fd.instr.valid = false := ⟨⟨_, rfl⟩, by decide, by decide, by decide, by decide⟩
/-- Any instruction can stand in FD of a cycle that does not flush: the hypotheses of every Decode clause. -/
theorem decode_hypotheses_met (i : Instr) : ∃ k s t, s.fd.instr = i ∧ branchOf k s.de = none ∧ exec k s = .next t :=
  ⟨.nop, { busy with fd := ⟨i, 2⟩ }, _, rfl, rfl, rfl⟩
theorem witness_AddWrapsTheSum :
    imageOk busy.prog = true ∧ ∃ k s t, s.fd.instr = (.add 10 8 9 : Instr) ∧ branchOf k s.de = none ∧ exec k s = .next t :=
  ⟨by decide, decode_hypotheses_met _⟩
theorem witness_SubWrapsTheDifference :
    imageOk busy.prog = true ∧ ∃ k s t, s.fd.instr = (.sub 10 8 9 : Instr) ∧ branchOf k s.de = none ∧ exec k s = .next t :=
  ⟨by decide, decode_hypotheses_met _⟩
theorem witness_MulKeepsTheLowWord :
    imageOk busy.prog = true ∧ ∃ k s t, s.fd.instr = (.mul 10 8 9 : Instr) ∧ branchOf k s.de = none ∧ exec k s = .next t :=
  ⟨by decide, decode_hypotheses_met _⟩
theorem witness_AndIsBitwise :
    imageOk busy.prog = true ∧ ∃ k s t, s.fd.instr = (.and 10 8 9 : Instr) ∧ branchOf k s.de = none ∧ exec k s = .next t :=
  ⟨by decide, decode_hypotheses_met _⟩
theorem witness_OrIsBitwise :
    imageOk busy.prog = true ∧ ∃ k s t, s.fd.instr = (.or 0 8 9 : Instr) ∧ branchOf k s.de = none ∧ exec k s = .next t :=
  ⟨by decide, decode_hypotheses_met _⟩
theorem witness_AddiAddsTheImmediate :
    imageOk busy.prog = true ∧ ∃ k s t, s.fd.instr = (.addi 0 8 (-1#32) : Instr) ∧ branchOf k s.de = none ∧ exec k s = .next t :=
  ⟨by decide, decode_hypotheses_met _⟩
theorem witness_SllMultipliesByAPowerOfTwo :
    imageOk busy.prog = true ∧ ∃ k s t, s.fd.instr = (.sll 10 9 31 : Instr) ∧ branchOf k s.de = none ∧ exec k s = .next t :=
  ⟨by decide, decode_hypotheses_met _⟩
theorem witness_JumpAlwaysRedirects :
    imageOk busy.prog = true ∧ ∃ k s t, s.fd.instr = (.j 3 : Instr) ∧ branchOf k s.de = none ∧ exec k s = .next t :=
  ⟨by decide, decode_hypotheses_met _⟩
theorem witness_SrlShiftsZerosIn :
    imageOk busy.prog = true ∧ busy.srlFill = .zero ∧ branchOf .nop busy.de = none ∧
      ∃ t, exec .nop { busy with fd := ⟨.srl 10 9 4, 2⟩ } = .next t := ⟨by decide, by decide, by decide, _, rfl⟩
theorem witness_SrlCopiesTheSignWhereSet :
    imageOk ({ busy with srlFill := .sign } : State).prog = true ∧ ({ busy with srlFill := .sign } : State).srlFill = .sign := by
  decide
theorem witness_NopHasNoEffect :
    imageOk ({ demo with pc := 2 } : State).prog = true ∧ branchOf .nop demo.de = none ∧
      wordAt demo.prog 2#32 = some bubbleWord := by decide
theorem witness_LwLoadsTheWord :
    imageOk busy.prog = true ∧ (0 ≤ widx 255#32 ∧ widx 255#32 < busy.memSize) ∧
      ¬(0 ≤ widx 256#32 ∧ widx 256#32 < busy.memSize) := by decide
theorem witness_SwStoresTheWord :
    imageOk busy.prog = true ∧ Memory.wf busy.mem = true ∧ place busy.memSize 255#32 = some 63 ∧
      place busy.memSize 256#32 = none := by decide
theorem witness_BeqBranchesOnEquality :
    imageOk branching.prog = true ∧ branching.de.rsVal = branching.de.rtVal ∧
      (inDE (.beq 8 9 3) 4 5 0).de.rsVal ≠ (inDE (.beq 8 9 3) 4 5 0).de.rtVal := by decide
/-- The four clauses at the ends of their ranges, for the least memory and for 64 words. -/
theorem witness_AddressMap :
    place 1 (-4#32) = none ∧ place 1 (-3#32) = some 0 ∧ place 1 (-1#32) = some 0 ∧ place 1 0#32 = some 0 ∧
      place 1 3#32 = some 0 ∧ place 1 4#32 = none ∧ place 64 255#32 = some 63 ∧ place 64 256#32 = none ∧
      place 64 (BitVec.intMin 32) = none ∧ place 64 0x7FFFFFFF#32 = none := by decide
/-- The last byte of word 63 and the first past it, and the two sides of word 0, for `MEM_SIZE` 64; a load and a store in EM at the
first address past the memory. -/
theorem witness_MemoryPortIsBoundsChecked :
    Memory.wf [(1, 22#32)] = true ∧ (0 ≤ widx 255#32 ∧ widx 255#32 < ((64 : Nat) : Int)) ∧
      ¬(0 ≤ widx 256#32 ∧ widx 256#32 < ((64 : Nat) : Int)) ∧ (0 ≤ widx (-3#32) ∧ widx (-3#32) < ((64 : Nat) : Int)) ∧
      ¬(0 ≤ widx (-4#32) ∧ widx (-4#32) < ((64 : Nat) : Int)) ∧
      imageOk busy.prog = true ∧ busy.memSize = 64 ∧
      ({ busy with em := ⟨.lw 8 0 256, 256, 0⟩ } : State).em.instr = .lw 8 0 256 ∧
      ({ busy with em := ⟨.sw 8 0 256, 256, 22⟩ } : State).em.instr = .sw 8 0 256 := by decide
theorem witness_StoreKeepsCanonicalForm : Memory.wf [(1, 22#32)] = true := by decide
theorem witness_StoreIsSeenByTheNextLoad :
    imageOk busy.prog = true ∧ Memory.wf busy.mem = true ∧ busy.em.instr = .sw 8 0 4 ∧
    ∃ t1, exec (.lw 10 0 7) { busy with de := ⟨.lw 10 0 7, 0, 0, 7⟩ } = .next t1 ∧ (∃ t2, step t1 = .next t2) ∧
      place busy.memSize busy.em.aluResult ≠ none ∧
      place busy.memSize t1.em.aluResult = place busy.memSize busy.em.aluResult :=
  ⟨by decide, by decide, by decide, _, rfl, ⟨_, rfl⟩, by decide, by decide⟩
theorem witness_DecodeOfEncode : Instr.wellFormed (.srl 8 9 31) = true ∧ Instr.wellFormed (.j 0x7FFFFFFF) = true := by decide
theorem witness_EncodeOfDecode : decode 0xA02400000000000800000000#96 = .ok (.sw 9 0 8) := by decide
theorem witness_ReservedOpcodesAreRejected :
    13 ≤ (0xD00000000000000000000000#96).toNat / 2 ^ 92 ∧ ¬ 13 ≤ (0xC00000000000000000000000#96).toNat / 2 ^ 92 := by decide
theorem witness_DecodeIgnoresInFlightResults :
    (∃ t, exec .nop busy = .next t) ∧ (∃ t, exec (.addi 8 0 5) { busy with de := ⟨.addi 9 0 5, 0, 0, 5⟩ } = .next t) ∧
      branchOf .nop busy.de = none ∧ branchOf (.addi 8 0 5) busy.de = none := ⟨⟨_, rfl⟩, ⟨_, rfl⟩, by decide, by decide⟩
theorem witness_ConsumerReadsCommittedValue :
    (9#5 : Reg) ≠ 0#5 ∧ branchOf .nop busy.de = none ∧ (∃ t, exec .nop busy = .next t ∧ t.de.rsVal = 3#32) ∧
      rsSource busy.fd.instr = some 9#5 ∧ rtSource busy.fd.instr = some 9#5 ∧ dest busy.mw.instr = some 9#5 :=
  ⟨by decide, by decide, ⟨_, rfl, by decide⟩, by decide, by decide, by decide⟩
theorem witness_TakenBranchCostsTwoSlots :
    imageOk branching.prog = true ∧ branchOf branching.de.instr branching.de = some 3#32 ∧
      ∃ t, exec branching.de.instr branching = .next t := ⟨by decide, by decide, _, rfl⟩
/-- A run of one ADDI, five cycles: hazard-free, and halted at its end. -/
theorem witness_HazardFreeRunIsSequential :
    ∃ s t, load [0x602000000000000500000000#96] 64 .zero = .ok s ∧ run 5 s = .next t ∧ halted t = true ∧ t.reg 8 = 5#32 ∧
      s.pc = 0#32 ∧ s.fd = FDLatch.empty ∧ s.de = DELatch.empty ∧ s.em = EMLatch.empty ∧ s.mw = MWLatch.empty ∧
      HazardFree 5 s := by
  refine ⟨_, _, rfl, rfl, by decide, by decide, rfl, rfl, rfl, rfl, rfl, ?_⟩
  intro k t hk h
  match k, hk with
  | 0, _ => cases h; decide
  | 1, _ => cases h; decide
  | 2, _ => cases h; decide
  | 3, _ => cases h; decide
  | 4, _ => cases h; decide
/-- `demo` with its first word in FD and an unrelated instruction in EM. -/
def inFlight : State :=
  { demo with pc := 1, fd := ⟨.addi 8 0 5, 1⟩, em := ⟨.addi 9 0 3, 3, 0⟩ }
/-- The second outcome is met too: the sequential machine of `inFlight` moves on. -/
theorem witness_HazardFreeStepIsSequential :
    FetchCoherent inFlight ∧ hazardNow inFlight = false ∧
      ∃ t, step inFlight = .next t ∧ t.drained ≠ inFlight.drained ∧ t.drained.pc = 1#32 ∧
        RegFile.read t.drained.regs 8 = 5#32 ∧ RegFile.read t.drained.regs 9 = 3#32 :=
  ⟨.inr ⟨rfl, 0x602000000000000500000000#96, by decide, by decide⟩, by decide, _, rfl, by decide, by decide, by decide, by decide⟩
/-- Both ends; and a halted state with a NOP left in FD, whose drained state is one step behind. -/
theorem witness_DrainedAgreesAtTheEnds :
    (demo.fd = FDLatch.empty ∧ demo.de = DELatch.empty ∧ demo.em = EMLatch.empty ∧ demo.mw = MWLatch.empty) ∧
    (FetchCoherent State.reset ∧ halted State.reset = true) ∧
    ∃ s : State, FetchCoherent s ∧ halted s = true ∧ s.drained ≠ s.seqView :=
  ⟨by decide, ⟨.inl rfl, by decide⟩, { State.reset with prog := [0#96], pc := 1, fd := ⟨.nop, 1⟩ },
    .inr ⟨rfl, 0#96, by decide, by decide⟩, by decide, by decide⟩
theorem witness_SpacedProgramIsHazardFree :
    (∃ s, load [0x602000000000000500000000#96] 64 .zero = .ok s) ∧ Spaced [0x602000000000000500000000#96] := by
  refine ⟨⟨_, rfl⟩, ?_⟩
  intro k p c hp hc
  simp [instrAt] at hc
theorem witness_InvariantIsKept : demo.Inv ∧ ∃ t, step demo = .next t := ⟨demo_meets_invariant, _, rfl⟩
theorem witness_InvariantHoldsAtStart : ∃ s, load demo.prog 64 .sign = .ok s := ⟨_, rfl⟩
theorem witness_ProgramIsImmutable : ∃ t, run 3 demo = .next t := ⟨_, rfl⟩
theorem witness_PipelineDrainsInFourCycles :
    imageOk busy.prog = true ∧ ¬(0 ≤ (4#32).toInt ∧ (4#32).toInt < busy.prog.length) ∧
      transfersControl busy.fd.instr = false ∧ transfersControl busy.de.instr = false := by decide
theorem witness_StraightLineRunLength :
    (∃ s, load [0x602000000000000500000000#96, 0#96] 64 .zero = .ok s) ∧
    (∀ k c, instrAt [0x602000000000000500000000#96, 0#96] k = some c → transfersControl c = false) ∧
    instrAt [0x602000000000000500000000#96, 0#96] 0 = some (.addi 8 0 5) ∧ Instr.valid (.addi 8 0 5) = true ∧
    (∀ k c, 0 < k → instrAt [0x602000000000000500000000#96, 0#96] k = some c → c.valid = false) := by
  refine ⟨⟨_, rfl⟩, ?_, by decide, by decide, ?_⟩
  · intro k c h
    match k with
    | 0 => cases h; rfl
    | 1 => cases h; rfl
    | k + 2 => simp [instrAt] at h
  · intro k c hk h
    match k, hk with
    | 1, _ => cases h; rfl
    | k + 2, _ => simp [instrAt] at h
theorem witness_AssembledImageIsWellFormed : ∃ image, assemble ["L: J L".toList] = .ok image := ⟨_, rfl⟩

end Sys2Proof.Machine
end

section
/-! Registers, reset and loading: the family 10_state. -/

namespace Sys2Proof.Machine

/-! ### Reset (R27) -/

@[simp] theorem read_reset_regs (r : Reg) : RegFile.read State.reset.regs r = 0#32 := by
  by_cases h : r = 0#5 <;> simp [RegFile.read, State.reset, h]

/-- Reset does not depend on the parameters of a run: the one fact behind the reset constant, `State.resetCore` and `load`. -/
theorem reset_with_parameters_cleared (image : List InstrWord) (n : Nat) (fill : SrlFill) :
    ClearedByReset { State.reset with prog := image, memSize := n, srlFill := fill } :=
  ⟨read_reset_regs, fun _ => rfl, rfl, rfl, rfl, rfl, rfl, rfl⟩

/-! ### Loading (R56, R113, R131) -/

/-- Everything a load can do when it succeeds. -/
theorem load_ok_iff {image : List InstrWord} {n : Nat} {fill : SrlFill} {s : State} :
    load image n fill = .ok s ↔
      imageOk image = true ∧ 0 < n ∧ s = { State.reset with prog := image, memSize := n, srlFill := fill } := by
  unfold load imageOk
  cases checkImage image with
  | error e => simp
  | ok u =>
    by_cases hn : n = 0
    · simp [hn]
    · simp [hn, Nat.pos_of_ne_zero hn, eq_comm]

/-- Settles O1: the three states are the reset state up to the parameters of a run, and a load yields no other. -/
theorem resetClearsTheMachine : Obligations.ResetClearsTheMachine := by
  refine ⟨reset_with_parameters_cleared _ _ _, fun s => ⟨reset_with_parameters_cleared _ _ _, ?_⟩, ?_⟩
  · simp
  · intro image n fill s h
    obtain ⟨hi, hn, rfl⟩ := load_ok_iff.1 h
    exact ⟨reset_with_parameters_cleared image n fill, hi, hn, rfl, rfl, rfl⟩

/-! ### Register 0 (R11) -/

/-- A completed cycle changes the registers by Write-Back alone, flushed or not (R73, R78). -/
theorem exec_regs {i : Instr} {s t : State} (h : exec i s = .next t) : t.regs = writeBack s.mw s.regs := by
  obtain ⟨f, -, rfl⟩ := exec_next_iff.1 h
  simp

theorem writeBack_of_dest {l : MWLatch} {r : Reg} (h : dest l.instr = some r) (x : RegFile) :
    writeBack l x = RegFile.write x r (committed l) := by
  simp [writeBack, h]

@[simp] theorem reg_zero (s : State) : s.reg 0#5 = 0#32 := read_zero s.regs

/-- Settles O9: register 0 is not stored, and Write-Back, the only writer of registers, drops a write to it. -/
theorem registerZeroIsHardWired : Obligations.RegisterZeroIsHardWired := by
  refine ⟨reg_zero, write_zero, ?_⟩
  intro i s t h hd
  have hregs : t.regs = s.regs := by rw [exec_regs h, writeBack_of_dest hd, write_zero]
  exact ⟨hregs, reg_zero t⟩

end Sys2Proof.Machine
end

section
/-! Data memory and the program store: the family 20_memory. -/

namespace Sys2Proof.Machine

/-! ### The word index (R31) -/

theorem widx_of_nonneg {a : Word} (h : 0 ≤ a.toInt) : widx a = a.toInt / 4 := Int.tdiv_eq_ediv_of_nonneg h

theorem widx_of_neg {a : Word} (h : a.toInt < 0) : widx a = -(-a.toInt / 4) := by
  have hneg : (-a.toInt).tdiv 4 = -a.toInt / 4 := Int.tdiv_eq_ediv_of_nonneg (by omega)
  rw [← hneg, Int.neg_tdiv, neg_neg]
  rfl

/-- Settles O31: the two signs separately, then the rule's examples by evaluation. -/
theorem wordIndexRoundsTowardZero : Obligations.WordIndexRoundsTowardZero := by
  refine ⟨fun a => ?_, by decide, by decide, by decide, by decide, by decide, by decide, by decide⟩
  split
  · next h => exact widx_of_nonneg h
  · next h => exact widx_of_neg (not_le.1 h)

/-! ### The memory port, in range and out of range (R32, R33) -/

theorem place_of_inside {n : Nat} {a : Word} (h : 0 ≤ widx a ∧ widx a < n) : place n a = some (widx a).toNat := if_pos h

theorem place_of_outside {n : Nat} {a : Word} (h : ¬(0 ≤ widx a ∧ widx a < n)) : place n a = none := if_neg h

theorem memRead_inside {n : Nat} {m : Memory} {a : Word} (h : 0 ≤ widx a ∧ widx a < n) :
    memRead n m a = Memory.read m (widx a).toNat := by
  simp [memRead, place_of_inside h]

theorem memRead_outside {n : Nat} {m : Memory} {a : Word} (h : ¬(0 ≤ widx a ∧ widx a < n)) : memRead n m a = 0#32 := by
  simp [memRead, place_of_outside h]

theorem memWrite_inside {n : Nat} {m : Memory} {a v : Word} (h : 0 ≤ widx a ∧ widx a < n) :
    memWrite n m a v = Memory.write m (widx a).toNat v := by
  simp [memWrite, place_of_inside h]

theorem memWrite_outside {n : Nat} {m : Memory} {a v : Word} (h : ¬(0 ≤ widx a ∧ widx a < n)) : memWrite n m a v = m := by
  simp [memWrite, place_of_outside h]

/-- An in-range store replaces the word its address names and no other. -/
theorem read_memWrite_inside {n : Nat} {m : Memory} {a v : Word} (hm : Memory.wf m = true)
    (h : 0 ≤ widx a ∧ widx a < n) (k : Nat) :
    Memory.read (memWrite n m a v) k = if (k : Int) = widx a then v else Memory.read m k := by
  rw [memWrite_inside h]
  split
  · next hk =>
    obtain rfl : k = (widx a).toNat := by omega
    exact read_write_same_word hm
  · exact read_write_other_word (by omega)

/-! ### The program store and the parameters (R42) -/

/-- The two states are on the same image with the same parameters. -/
def SameProgram (s t : State) : Prop := t.prog = s.prog ∧ t.memSize = s.memSize ∧ t.srlFill = s.srlFill

theorem SameProgram.refl (s : State) : SameProgram s s := ⟨rfl, rfl, rfl⟩

theorem SameProgram.trans {s t u : State} : SameProgram s t → SameProgram t u → SameProgram s u :=
  fun ⟨hp, hm, hf⟩ ⟨hp', hm', hf'⟩ => ⟨hp'.trans hp, hm'.trans hm, hf'.trans hf⟩

theorem exec_sameProgram {i : Instr} {s t : State} (h : exec i s = .next t) : SameProgram s t := by
  obtain ⟨f, -, rfl⟩ := exec_next_iff.1 h
  simp [SameProgram]

theorem step_sameProgram {s t : State} (h : step s = .next t) : SameProgram s t := by
  obtain ⟨-, ⟨-, rfl⟩ | ⟨-, he⟩⟩ := step_cases h
  · exact SameProgram.refl t
  · exact exec_sameProgram he

@[simp] theorem run_zero (s : State) : run 0 s = .next s := rfl

/-- A run of one step more is a step and then the run. -/
theorem run_succ_next_iff {n : Nat} {s t : State} :
    run (n + 1) s = .next t ↔ ∃ u, step s = .next u ∧ run n u = .next t := by
  rw [run]
  cases step s <;> simp

theorem run_sameProgram {n : Nat} {s t : State} (h : run n s = .next t) : SameProgram s t := by
  induction n generalizing s with
  | zero =>
    cases h
    exact SameProgram.refl t
  | succ n ih =>
    obtain ⟨u, hstep, hrun⟩ := run_succ_next_iff.1 h
    exact (step_sameProgram hstep).trans (ih hrun)

/-- Settles O47: every step keeps the image and the parameters, so every run does. -/
theorem programIsImmutable : Obligations.ProgramIsImmutable := fun _ _ _ => run_sameProgram

/-! ### What a cycle does with the latches EM and MW (R73, R74) -/

@[simp] theorem memoryStage_instr (n : Nat) (m : Memory) (l : EMLatch) : (memoryStage n m l).instr = l.instr := rfl
@[simp] theorem memoryStage_memData (n : Nat) (m : Memory) (l : EMLatch) :
    (memoryStage n m l).memData = loadedWord n m l := rfl

theorem exec_mem {i : Instr} {s t : State} (h : exec i s = .next t) : t.mem = storeStage s.memSize s.mem s.em := by
  obtain ⟨f, -, rfl⟩ := exec_next_iff.1 h
  simp

theorem exec_mw {i : Instr} {s t : State} (h : exec i s = .next t) : t.mw = memoryStage s.memSize s.mem s.em := by
  obtain ⟨f, -, rfl⟩ := exec_next_iff.1 h
  simp

/-- Write-Back with destination `r`: that register gets the committed value unless it is register 0, and no other changes. -/
theorem exec_reg_of_dest {i : Instr} {s t : State} {r : Reg} (h : exec i s = .next t) (hd : dest s.mw.instr = some r)
    (q : Reg) : t.reg q = if q = r ∧ q ≠ 0#5 then committed s.mw else s.reg q := by
  rw [State.reg, exec_regs h, writeBack_of_dest hd, read_write]
  exact if_congr (and_congr_right fun e => e ▸ Iff.rfl) rfl rfl

/-- An instruction in EM that changes no memory and loads no word leaves steps 1 to 5 as a bubble in EM does, but for itself in
MW. -/
theorem advance_with_em_bubble {i : Instr} {r : Word} {f : Fetched} {s : State}
    (hstore : storeStage s.memSize s.mem s.em = s.mem) (hload : loadedWord s.memSize s.mem s.em = 0#32) :
    advance i r f { s with em := { s.em with instr := .nop } } =
      { advance i r f s with mw := { (advance i r f s).mw with instr := .nop } } := by
  simp only [advance, memoryStage, hstore, hload]
  rfl

theorem flush_with_mw_instr (b : Branch) (s : State) (i : Instr) :
    flush b { s with mw := { s.mw with instr := i } } =
      { flush b s with mw := { (flush b s).mw with instr := i } } := by
  cases b <;> rfl

theorem aluResult_with_em (i : Instr) (s : State) (l : EMLatch) : aluResult i { s with em := l } = aluResult i s := by
  cases i <;> rfl

/-- The same of the whole cycle: what is in EM reaches neither Execute nor the flush. -/
theorem exec_with_em_bubble {i : Instr} {s t : State} (h : exec i s = .next t)
    (hstore : storeStage s.memSize s.mem s.em = s.mem) (hload : loadedWord s.memSize s.mem s.em = 0#32) :
    exec i { s with em := { s.em with instr := .nop } } = .next { t with mw := { t.mw with instr := .nop } } := by
  obtain ⟨f, hf, rfl⟩ := exec_next_iff.1 h
  refine exec_next_iff.2 ⟨f, hf, ?_⟩
  rw [aluResult_with_em, advance_with_em_bubble hstore hload]
  exact (flush_with_mw_instr _ _ _).symm

/-! ### The Memory stage out of range -/

/-- Whatever is in EM, its access out of range changes no memory. -/
theorem storeStage_outside {n : Nat} {m : Memory} {l : EMLatch} (h : ¬(0 ≤ widx l.aluResult ∧ widx l.aluResult < n)) :
    storeStage n m l = m := by
  unfold storeStage
  split
  · exact memWrite_outside h
  all_goals rfl

/-- Whatever is in EM, its access out of range loads 0. -/
theorem loadedWord_outside {n : Nat} {m : Memory} {l : EMLatch} (h : ¬(0 ≤ widx l.aluResult ∧ widx l.aluResult < n)) :
    loadedWord n m l = 0#32 := by
  unfold loadedWord
  split
  · exact memRead_outside h
  all_goals rfl

/-- Settles O33: the port's cases, then an out-of-range LW and an out-of-range SW in EM. -/
theorem memoryPortIsBoundsChecked : Obligations.MemoryPortIsBoundsChecked := by
  refine ⟨fun n m a v hm => ⟨?_, fun h0 hn => read_memWrite_inside hm ⟨h0, hn⟩, memWrite_outside⟩, ?_, ?_⟩
  · split
    · next h => exact memRead_inside h
    · next h => exact memRead_outside h
  · intro i s rt base offset himg hlw hout
    obtain ⟨f, -, ht⟩ := exec_completes himg i
    have hmw := exec_mw ht
    refine ⟨_, ht, ?_, ?_, ?_, fun j => ?_⟩
    · rw [hmw, memoryStage_instr, hlw]
    · rw [hmw, memoryStage_memData, loadedWord_outside hout]
    · rw [exec_mem ht, storeStage_outside hout]
    · obtain ⟨himg', -, -⟩ := exec_sameProgram ht
      obtain ⟨g, -, hu⟩ := exec_completes (himg' ▸ himg) j
      refine ⟨_, hu, fun r => ?_⟩
      have hdest : dest (memoryStage s.memSize s.mem s.em).instr = some rt := by simp [dest, hlw]
      rw [exec_reg_of_dest hu (hmw ▸ hdest) r, hmw]
      simp [committed, hlw, loadedWord_outside hout]
  · intro i s rt base offset himg hsw hout
    obtain ⟨f, -, ht⟩ := exec_completes himg i
    refine ⟨_, ht, ?_, ?_, exec_with_em_bubble ht (storeStage_outside hout) (loadedWord_outside hout)⟩
    · rw [exec_mem ht, storeStage_outside hout]
    · rw [exec_mw ht, memoryStage_instr, hsw]

end Sys2Proof.Machine
end

section
/-! The instruction word and the image: the family 30_encoding. -/

namespace Sys2Proof

/-! ### Which words a format accepts (R47, R56) -/

theorem exists_ok_ite {ε α : Type} {p : Prop} [Decidable p] {a : α} {e : ε} :
    (∃ i, (if p then .ok a else .error e : Except ε α) = .ok i) ↔ p := by
  by_cases h : p <;> simp [h]

theorem exists_ok_ite_ite {ε α : Type} {p q : Prop} [Decidable p] [Decidable q] {a : α} {e e' : ε} :
    (∃ i, (if p then if q then .ok a else .error e else .error e' : Except ε α) = .ok i) ↔ p ∧ q := by
  by_cases h : p <;> simp [h, exists_ok_ite]

theorem decodeN_ok_iff {f : Fields} :
    (∃ i, decodeN f = .ok i) ↔
      f.rs = 0#5 ∧ f.rt = 0#5 ∧ f.rd = 0#5 ∧ f.zero = 0#13 ∧ f.imm = 0#32 ∧ f.address = 0#32 := exists_ok_ite

theorem decodeR_ok_iff {f : Fields} {make : Reg → Reg → Reg → Instr} :
    (∃ i, decodeR f make = .ok i) ↔ f.zero = 0#13 ∧ f.imm = 0#32 ∧ f.address = 0#32 := exists_ok_ite

theorem decodeIM_ok_iff {f : Fields} {make : Reg → Reg → Word → Instr} :
    (∃ i, decodeIM f make = .ok i) ↔ f.rd = 0#5 ∧ f.zero = 0#13 ∧ f.address = 0#32 := exists_ok_ite

/-- R56 check 4, read as signed. -/
theorem shiftAmountOk_iff {shamt : Word} : shiftAmountOk shamt = true ↔ 0 ≤ shamt.toInt ∧ shamt.toInt ≤ 31 := by
  simp only [shiftAmountOk, decide_eq_true_eq, BitVec.toInt_eq_toNat_cond]
  split <;> omega

theorem targetOk_iff {address : Word} : targetOk address = true ↔ 0 ≤ address.toInt := decide_eq_true_iff

theorem decodeS_ok_iff {f : Fields} {make : Reg → Reg → Word → Instr} :
    (∃ i, decodeS f make = .ok i) ↔
      (f.rs = 0#5 ∧ f.zero = 0#13 ∧ f.address = 0#32) ∧ 0 ≤ f.imm.toInt ∧ f.imm.toInt ≤ 31 := by
  rw [← shiftAmountOk_iff]
  exact exists_ok_ite_ite

theorem decodeB_ok_iff {f : Fields} {make : Reg → Reg → Word → Instr} :
    (∃ i, decodeB f make = .ok i) ↔ (f.rd = 0#5 ∧ f.zero = 0#13 ∧ f.imm = 0#32) ∧ 0 ≤ f.address.toInt := by
  rw [← targetOk_iff]
  exact exists_ok_ite_ite

theorem decodeJ_ok_iff {f : Fields} {make : Word → Instr} :
    (∃ i, decodeJ f make = .ok i) ↔
      (f.rs = 0#5 ∧ f.rt = 0#5 ∧ f.rd = 0#5 ∧ f.zero = 0#13 ∧ f.imm = 0#32) ∧ 0 ≤ f.address.toInt := by
  rw [← targetOk_iff]
  exact exists_ok_ite_ite

/-! ### The opcode field (R45, R51) -/

/-- The opcode is the top four bits of the word (R45). -/
theorem unpack_opcode_toNat (w : InstrWord) : (unpack w).opcode.toNat = w.toNat / 2 ^ 92 := by
  have hw := w.isLt
  simp only [unpack, BitVec.extractLsb'_toNat, Nat.shiftRight_eq_div_pow]
  omega

theorem decodeFields_reserved {f : Fields} (h : 13 ≤ f.opcode.toNat) : decodeFields f = .error .reservedOpcode := by
  unfold decodeFields
  split
  case h_14 => rfl
  all_goals omega

end Sys2Proof

namespace Sys2Proof.Machine

/-- Settles O38: the decoder falls through the opcode map, and every word of a well-formed image decodes. -/
theorem reservedOpcodesAreRejected : Obligations.ReservedOpcodesAreRejected := by
  intro w hw
  have hdec : decode w = .error .reservedOpcode := decodeFields_reserved (by rwa [unpack_opcode_toNat])
  refine ⟨hdec, fun image hmem => Bool.eq_false_iff.2 fun himg => ?_⟩
  obtain ⟨i, hi⟩ := (imageOk_iff.1 himg).2 w hmem
  rw [hdec] at hi
  cases hi

/-! ### The checks of a word and of an image (R56) -/

/-- The decoder accepts a word exactly when it passes checks 2 to 5: one case per opcode. -/
theorem decode_ok_iff_wordAdmitted (w : InstrWord) : (∃ i, decode w = .ok i) ↔ WordAdmitted w := by
  unfold decode WordAdmitted
  generalize unpack w = f
  unfold decodeFields
  split
  case h_1 hN => simp [hN, decodeN_ok_iff, and_left_comm]
  case h_2 hR | h_3 hR | h_4 hR | h_5 hR | h_6 hR => simp [hR, decodeR_ok_iff]
  case h_7 hI | h_10 hI | h_11 hI => simp [hI, decodeIM_ok_iff, and_left_comm]
  case h_8 hS | h_9 hS => simp [hS, decodeS_ok_iff, and_assoc, and_left_comm]
  case h_12 hB => simp [hB, decodeB_ok_iff, and_assoc, and_left_comm]
  case h_13 hJ => simp [hJ, decodeJ_ok_iff, and_assoc, and_left_comm]
  case h_14 =>
    have hreserved : ¬f.opcode.toNat ≤ 12 := by
      simp only [imp_false] at *
      omega
    simp [hreserved]

/-- Settles O39: the image check asks that every word decodes, and the words that decode are the admitted ones. -/
theorem imageIsWellFormedExactlyByItsChecks : Obligations.ImageIsWellFormedExactlyByItsChecks := by
  intro image
  have hlen : (image.length : Int) ≤ 2 ^ 31 - 1 ↔ image.length ≤ Config.maxProgLen := by
    simp only [Config.maxProgLen]
    omega
  simp only [imageOk_iff, decode_ok_iff_wordAdmitted, hlen]

end Sys2Proof.Machine
end

section
/-! The stages of one cycle: the family 40_pipeline. -/

namespace Sys2Proof.Machine

/-! ### Write-Back (R73) -/

/-- Write-Back commits the ALU result of every instruction but LW. -/
theorem committed_of_not_load {l : MWLatch} (h : isLoad l.instr = false) : committed l = l.aluResult := by
  unfold committed
  split
  case h_1 hlw => simp [hlw, isLoad] at h
  all_goals rfl

theorem committed_of_lw {l : MWLatch} {rt base : Reg} {offset : Word} (h : l.instr = .lw rt base offset) :
    committed l = l.memData := by
  simp [committed, h]

theorem writeBack_of_no_dest {l : MWLatch} (h : dest l.instr = none) (x : RegFile) : writeBack l x = x := by
  simp [writeBack, h]

theorem exec_regs_of_no_dest {i : Instr} {s t : State} (h : exec i s = .next t) (hd : dest s.mw.instr = none) :
    t.regs = s.regs := by
  rw [exec_regs h, writeBack_of_no_dest hd]

/-- Settles O10: by the instruction in MW, which has a destination and an ALU result to commit, is a load, or has no
destination. -/
theorem writeBackCommits : Obligations.WriteBackCommits := by
  intro i s t h
  have hresult {rd : Reg} (hd : dest s.mw.instr = some rd) (hl : isLoad s.mw.instr = false) (r : Reg) :
      t.reg r = if r = rd ∧ r ≠ 0#5 then s.mw.aluResult else s.reg r := by
    rw [exec_reg_of_dest h hd, committed_of_not_load hl]
  cases hi : s.mw.instr with
  | add | sub | mul | and | or | sll | srl | addi => exact hresult (by rw [hi]; rfl) (by rw [hi]; rfl)
  | lw rt base offset =>
    intro r
    rw [exec_reg_of_dest h (show dest s.mw.instr = some rt by rw [hi]; rfl), committed_of_lw hi]
  | sw | beq | j | nop => exact exec_regs_of_no_dest h (by rw [hi]; rfl)

/-! ### Memory (R74) -/

@[simp] theorem memoryStage_aluResult (n : Nat) (m : Memory) (l : EMLatch) :
    (memoryStage n m l).aluResult = l.aluResult := rfl
@[simp] theorem memoryStage_rtVal (n : Nat) (m : Memory) (l : EMLatch) : (memoryStage n m l).rtVal = l.rtVal := rfl

theorem loadedWord_of_lw {n : Nat} {m : Memory} {l : EMLatch} {rt base : Reg} {offset : Word}
    (h : l.instr = .lw rt base offset) : loadedWord n m l = memRead n m l.aluResult := by
  simp [loadedWord, h]

theorem loadedWord_of_not_load {n : Nat} {m : Memory} {l : EMLatch} (h : isLoad l.instr = false) :
    loadedWord n m l = 0#32 := by
  unfold loadedWord
  split
  case h_1 hlw => simp [hlw, isLoad] at h
  all_goals rfl

theorem storeStage_of_sw {n : Nat} {m : Memory} {l : EMLatch} {rt base : Reg} {offset : Word}
    (h : l.instr = .sw rt base offset) : storeStage n m l = memWrite n m l.aluResult l.rtVal := by
  simp [storeStage, h]

theorem storeStage_of_not_store {n : Nat} {m : Memory} {l : EMLatch}
    (h : ∀ rt base offset, l.instr ≠ .sw rt base offset) : storeStage n m l = m := by
  unfold storeStage
  split
  case h_1 hsw => exact absurd hsw (h _ _ _)
  all_goals rfl

/-- Only the word that a SW in EM names can change in the Memory stage. -/
theorem read_storeStage_other {n k : Nat} {m : Memory} {l : EMLatch}
    (h : ∀ rt base offset, l.instr = .sw rt base offset → place n l.aluResult ≠ some k) :
    Memory.read (storeStage n m l) k = Memory.read m k := by
  unfold storeStage
  split
  case h_1 hsw => exact memWrite_other (h _ _ _ hsw)
  all_goals rfl

/-- Settles O11: by the instruction in EM, which loads, stores, or does not touch memory. -/
theorem memoryStageAccesses : Obligations.MemoryStageAccesses := by
  intro i s t h
  rw [exec_mw h, exec_mem h]
  refine ⟨rfl, rfl, rfl, ?_⟩
  cases hi : s.em.instr with
  | lw => exact ⟨loadedWord_of_lw hi, storeStage_of_not_store (by simp [hi])⟩
  | sw => exact ⟨loadedWord_of_not_load (by rw [hi]; rfl), storeStage_of_sw hi⟩
  | nop | add | sub | mul | and | or | addi | sll | srl | beq | j =>
    exact ⟨loadedWord_of_not_load (by rw [hi]; rfl), storeStage_of_not_store (by simp [hi])⟩

/-! ### Fetch (R77) -/

theorem wordAt_eq_getElem? {prog : List InstrWord} {pc : Word} (h : 0 ≤ pc.toInt ∧ pc.toInt < prog.length) :
    wordAt prog pc = prog[pc.toNat]? := by
  simp [wordAt, pcInBounds, h]

/-- Inside the program there is a word at `pc` (R44). -/
theorem wordAt_ne_none {prog : List InstrWord} {pc : Word} (h : 0 ≤ pc.toInt ∧ pc.toInt < prog.length) :
    wordAt prog pc ≠ none := by
  have hlt : pc.toNat < prog.length := by
    have := BitVec.toInt_eq_toNat_cond (x := pc)
    split at this <;> omega
  simp [wordAt_eq_getElem? h, hlt]

/-- Settles O12: without a flush the cycle ends where Fetch leaves `pc` and FD. -/
theorem fetchAdvances : Obligations.FetchAdvances := by
  intro i s himg hbranch
  obtain ⟨f, hf, ht⟩ := exec_completes himg i
  rw [hbranch] at ht
  refine ⟨_, ht, ?_⟩
  rcases fetchStage_cases hf with ⟨hnone, rfl⟩ | ⟨w, k, hw, hk, rfl⟩
  · rw [if_neg fun hin => wordAt_ne_none hin hnone]
    exact ⟨rfl, rfl⟩
  · have hin := inBounds_of_wordAt hw
    rw [if_pos hin]
    exact ⟨w, k, by rw [← wordAt_eq_getElem? hin, hw], hk, rfl, rfl⟩

/-! ### Flush (R78) -/

/-- BEQ and J, which alone can decide a branch, compute no ALU result. -/
theorem computesNothing_of_branch {i : Instr} {l : DELatch} {target : Word} (h : branchOf i l = some target) :
    computesNothing i = true := by
  cases i
  case beq | j => rfl
  all_goals cases h

/-- Settles O13: the flush redirects `pc` and empties FD and DE of the state after steps 1 to 5, and keeps the rest. -/
theorem flushDiscardsTwoSlots : Obligations.FlushDiscardsTwoSlots := by
  intro i s target himg hbranch
  obtain ⟨f, -, ht⟩ := exec_completes himg i
  rw [hbranch, aluResult_computesNothing (computesNothing_of_branch hbranch)] at ht
  exact ⟨_, ht, ⟨rfl, rfl, rfl⟩, rfl, exec_mw ht, exec_regs ht, exec_mem ht⟩

/-! ### The frame of a cycle (R82) -/

theorem exec_cycles {i : Instr} {s t : State} (h : exec i s = .next t) : t.cycles = s.cycles + 1 := by
  obtain ⟨f, -, rfl⟩ := exec_next_iff.1 h
  simp

theorem exec_reg_of_not_dest {i : Instr} {s t : State} {r : Reg} (h : exec i s = .next t)
    (hr : dest s.mw.instr ≠ some r) : t.reg r = s.reg r := by
  cases hd : dest s.mw.instr with
  | none => rw [State.reg, exec_regs_of_no_dest h hd, State.reg]
  | some d =>
    rw [exec_reg_of_dest h hd, if_neg]
    rintro ⟨rfl, -⟩
    exact hr hd

/-- Settles O15: registers change by Write-Back alone, memory by the store in EM alone. -/
theorem cycleFrame : Obligations.CycleFrame := by
  intro i s t h
  refine ⟨fun r => exec_reg_of_not_dest h, fun k hk => ?_, exec_cycles h, exec_sameProgram h⟩
  rw [State.word, exec_mem h]
  exact read_storeStage_other hk

/-! ### Bubbles (R80) -/

/-- EM holds what Execute made of its instruction, flushed or not (R75, R78). -/
theorem exec_em {i : Instr} {s t : State} (h : exec i s = .next t) : t.em = ⟨i, aluResult i s, s.de.rtVal⟩ := by
  obtain ⟨f, -, rfl⟩ := exec_next_iff.1 h
  simp

/-- DE holds what Decode made of the instruction in FD, or is emptied by a flush (R76, R78). -/
theorem exec_de {i : Instr} {s t : State} (h : exec i s = .next t) :
    t.de = if branchOf i s.de = none then decodeStage t.regs s.fd.instr else DELatch.empty := by
  obtain ⟨f, -, rfl⟩ := exec_next_iff.1 h
  cases branchOf i s.de <;> simp

/-- A bubble decodes to the empty latch, as a flush leaves it. -/
@[simp] theorem decodeStage_nop (x : RegFile) : decodeStage x .nop = DELatch.empty := rfl

/-- Settles O16: a slot that is not valid holds a NOP, and each stage's rule for NOP is the bubble's. -/
theorem bubbleChangesNothing : Obligations.BubbleChangesNothing := by
  intro i s t h
  simp only [valid_eq_false]
  refine ⟨fun hmw => ?_, fun hem => ⟨?_, ?_, ?_⟩, ?_, fun hfd => ?_⟩
  · exact exec_regs_of_no_dest h (by rw [hmw]; rfl)
  · rw [exec_mem h, storeStage_of_not_store (by simp [hem])]
  · rw [exec_mw h, memoryStage_memData, loadedWord_of_not_load (by rw [hem]; rfl)]
  · rw [exec_mw h, memoryStage_instr, hem]
  · rintro rfl
    exact ⟨rfl, exec_em h⟩
  · rw [exec_de h, hfd, decodeStage_nop, ite_self]
    rfl

end Sys2Proof.Machine
end

section
/-! Instructions that write a register with an ALU result: what `Encodes`, `DecodesTo` and `ResultPassage` ask of any of
them, then ADD, SUB, MUL, AND, OR: the family 41_arith. -/

namespace Sys2Proof.Machine

/-! ### The word and its Decode (R45, R76) -/

@[simp] theorem fields_zero (i : Instr) : i.fields.zero = 0#13 := by cases i <;> rfl

/-- The word of any instruction, in the numbers of its own fields. -/
theorem encodes_fields (i : Instr) :
    Encodes i i.fields.opcode.toNat i.fields.rs i.fields.rt i.fields.rd i.fields.imm i.fields.address := by
  rw [Encodes, toNat_encode, fields_zero, BitVec.toNat_zero]
  ring

/-- Decode of any instruction, by its own row of the operand table. -/
theorem decodesTo_sources (i : Instr) :
    DecodesTo i (fun x => sourceValue x (rsSource i)) (fun x => sourceValue x (rtSource i)) (immField i) := by
  intro k s t hfd hbranch h
  rw [exec_de h, if_pos hbranch, hfd]
  rfl

/-! ### What a destination register rules out (R47, R73) -/

theorem valid_of_dest {i : Instr} {r : Reg} (h : dest i = some r) : i.valid = true := by
  cases i with
  | nop => cases h
  | _ => rfl

theorem branchOf_of_dest {i : Instr} {r : Reg} (h : dest i = some r) (l : DELatch) : branchOf i l = none := by
  cases i with
  | beq | j => cases h
  | _ => rfl

theorem storeStage_of_dest {l : EMLatch} {r : Reg} (h : dest l.instr = some r) (n : Nat) (m : Memory) :
    storeStage n m l = m :=
  storeStage_of_not_store fun rt base offset hsw => by simp [hsw, dest] at h

/-! ### From Execute to Write-Back (R70 to R74) -/

/-- Without a flush Decode and Fetch do their work. -/
theorem exec_notSquashed {i : Instr} {s t : State} (h : exec i s = .next t) (hbranch : branchOf i s.de = none) :
    NotSquashed s t := by
  refine ⟨by rw [exec_de h, if_pos hbranch], ?_⟩
  obtain ⟨f, hf, rfl⟩ := exec_next_iff.1 h
  simpa [hbranch] using hf

/-- On a well-formed image a cycle completes, and leaves the image well-formed. -/
theorem exec_completes_imageOk {s : State} (himg : imageOk s.prog = true) (i : Instr) :
    ∃ t, exec i s = .next t ∧ imageOk t.prog = true := by
  obtain ⟨f, -, h⟩ := exec_completes himg i
  exact ⟨_, h, (exec_sameProgram h).1 ▸ himg⟩

/-- The same of a step that is a cycle. -/
theorem step_completes_running {s : State} (himg : imageOk s.prog = true) (hrun : halted s = false) :
    ∃ t, step s = .next t ∧ exec s.de.instr s = .next t ∧ imageOk t.prog = true := by
  obtain ⟨t, h, himg'⟩ := exec_completes_imageOk himg s.de.instr
  exact ⟨t, by rw [step_running himg hrun, h], h, himg'⟩

/-- An instruction with a destination that is no load carries its ALU result to that register; being valid, it keeps the machine
running on its way. -/
theorem resultPassage_of_dest {i : Instr} {rd : Reg} {when : State → Prop} {result : State → Word}
    (hdest : dest i = some rd) (hload : isLoad i = false) (hresult : ∀ s, when s → aluResult i s = result s) :
    ResultPassage i rd when result := by
  intro s himg hwhen
  obtain ⟨t1, h1, himg1⟩ := exec_completes_imageOk himg i
  have hem : t1.em = ⟨i, result s, s.de.rtVal⟩ := by rw [exec_em h1, hresult s hwhen]
  have hemi : t1.em.instr = i := by rw [hem]
  obtain ⟨t2, hs2, h2, himg2⟩ := step_completes_running himg1 (not_halted_of_em (hemi ▸ valid_of_dest hdest))
  have hmem : t2.mem = t1.mem := by rw [exec_mem h2, storeStage_of_dest (hemi ▸ hdest)]
  have hmw : t2.mw = ⟨i, result s, s.de.rtVal, 0#32⟩ := by
    rw [exec_mw h2, memoryStage, loadedWord_of_not_load (hemi ▸ hload), hem]
  have hmwi : t2.mw.instr = i := by rw [hmw]
  obtain ⟨t3, hs3, h3, -⟩ := step_completes_running himg2 (not_halted_of_mw (hmwi ▸ valid_of_dest hdest))
  have hns : NotSquashed s t1 := exec_notSquashed h1 (branchOf_of_dest hdest _)
  refine ⟨t1, t2, t3, h1, hs2, hs3, hem, hns, hmem, hmw, exec_mem h3, fun r => ?_⟩
  rw [exec_reg_of_dest h3 (hmwi ▸ hdest), committed_of_not_load (hmwi ▸ hload), hmw]

/-! ### Exact arithmetic, wrapped (R7, R89) -/

theorem s32_add_toInt (a b : Word) : s32 (a.toInt + b.toInt) = a + b := by simp [s32, BitVec.ofInt_add]
theorem s32_sub_toInt (a b : Word) : s32 (a.toInt - b.toInt) = a - b := by
  simp [s32, Int.sub_eq_add_neg, BitVec.sub_eq_add_neg, BitVec.ofInt_add, BitVec.ofInt_neg]
theorem s32_mul_toInt (a b : Word) : s32 (a.toInt * b.toInt) = a * b := by simp [s32, BitVec.ofInt_mul]

/-! ### The register-register operations (R90 to R94) -/

/-- Settles O17: ADD is an instruction with a destination, and the word sum is the wrapped exact sum. -/
theorem addWrapsTheSum : Obligations.AddWrapsTheSum := fun rd rs rt =>
  ⟨encodes_fields (.add rd rs rt), decodesTo_sources (.add rd rs rt),
    resultPassage_of_dest rfl rfl fun _ _ => (s32_add_toInt _ _).symm⟩

/-- Settles O18: as O17, with the word difference, `rs` the minuend. -/
theorem subWrapsTheDifference : Obligations.SubWrapsTheDifference := fun rd rs rt =>
  ⟨encodes_fields (.sub rd rs rt), decodesTo_sources (.sub rd rs rt),
    resultPassage_of_dest rfl rfl fun _ _ => (s32_sub_toInt _ _).symm⟩

/-- Settles O19: as O17, with the word product, which is the low word of the exact product. -/
theorem mulKeepsTheLowWord : Obligations.MulKeepsTheLowWord := fun rd rs rt =>
  ⟨encodes_fields (.mul rd rs rt), decodesTo_sources (.mul rd rs rt),
    resultPassage_of_dest rfl rfl fun _ _ => (s32_mul_toInt _ _).symm⟩

/-- Settles O20: the ALU result of AND is the bitwise AND itself. -/
theorem andIsBitwise : Obligations.AndIsBitwise := fun rd rs rt =>
  ⟨encodes_fields (.and rd rs rt), decodesTo_sources (.and rd rs rt), resultPassage_of_dest rfl rfl fun _ _ => rfl⟩

/-- Settles O21: the ALU result of OR is the bitwise OR itself. -/
theorem orIsBitwise : Obligations.OrIsBitwise := fun rd rs rt =>
  ⟨encodes_fields (.or rd rs rt), decodesTo_sources (.or rd rs rt), resultPassage_of_dest rfl rfl fun _ _ => rfl⟩

end Sys2Proof.Machine
end

section
/-! The immediate operation: the family 42_immediate. -/

namespace Sys2Proof.Machine

/-- Settles O22: ADDI has a destination, `rt`; its second source is none, which Decode latches as 0, and the immediate takes that
operand's place in the wrapped sum. -/
theorem addiAddsTheImmediate : Obligations.AddiAddsTheImmediate := fun rt rs imm =>
  ⟨encodes_fields (.addi rt rs imm), decodesTo_sources (.addi rt rs imm),
    resultPassage_of_dest rfl rfl fun _ _ => (s32_add_toInt _ _).symm⟩

end Sys2Proof.Machine
end

section
/-! The shifts: the family 43_shift. -/

namespace Sys2Proof.Machine

/-! ### The amount and the ALU result (R48, R96, R97) -/

theorem shiftAmount_eq_mod (imm : Word) : shiftAmount imm = imm.toNat % 32 := by
  simp [shiftAmount, BitVec.extractLsb'_toNat]

theorem aluResult_sll (rd rt : Reg) (shamt : Word) (s : State) :
    aluResult (.sll rd rt shamt) s = s.de.rtVal <<< (s.de.imm.toNat % 32) := by
  rw [aluResult, shiftAmount_eq_mod]

/-- The ALU result of SRL under either fill. -/
theorem aluResult_srl (rd rt : Reg) (shamt : Word) (s : State) :
    aluResult (.srl rd rt shamt) s = shiftRight s.srlFill s.de.rtVal (s.de.imm.toNat % 32) := by
  rw [aluResult, shiftAmount_eq_mod]

/-! ### A shift in exact arithmetic (R7, R89) -/

theorem s32_two_pow (n : Nat) : s32 (2 ^ n) = BitVec.twoPow 32 n := by
  have hcast : (2 : Int) ^ n = ((2 ^ n : Nat) : Int) := (Nat.cast_pow 2 n).symm
  rw [s32, hcast, BitVec.ofInt_natCast]
  apply BitVec.eq_of_toNat_eq
  rw [BitVec.toNat_ofNat, BitVec.toNat_twoPow]

/-- A shift left is the product with the word of `2^n`, and a product of words is the wrapped exact product. -/
theorem s32_toInt_mul_two_pow (a : Word) (n : Nat) : s32 (a.toInt * 2 ^ n) = a <<< n := by
  calc s32 (a.toInt * 2 ^ n)
      = BitVec.ofInt 32 a.toInt * s32 (2 ^ n) := BitVec.ofInt_mul _ _
    _ = a * BitVec.twoPow 32 n := by rw [BitVec.ofInt_toInt, s32_two_pow]
    _ = a <<< n := (BitVec.shiftLeft_eq_mul_twoPow a n).symm

theorem shiftRight_zero_eq_div (a : Word) (n : Nat) : shiftRight .zero a n = BitVec.ofNat 32 (a.toNat / 2 ^ n) := by
  rw [shiftRight, ← Nat.shiftRight_eq_div_pow, ← BitVec.toNat_ushiftRight, BitVec.ofNat_toNat, BitVec.setWidth_eq]

/-! ### SLL and SRL (R96, R97) -/

/-- Settles O23: SLL has a destination, no `rs` source, which Decode latches as 0, and its shifted word is the wrapped exact
product with the power of two. -/
theorem sllMultipliesByAPowerOfTwo : Obligations.SllMultipliesByAPowerOfTwo := fun rd rt shamt =>
  ⟨encodes_fields (.sll rd rt shamt), decodesTo_sources (.sll rd rt shamt),
    resultPassage_of_dest rfl rfl fun s _ => by rw [aluResult_sll, s32_toInt_mul_two_pow]⟩

/-- Settles O24: as O23; where the fill is zero, the shifted word is the unsigned quotient by the power of two. -/
theorem srlShiftsZerosIn : Obligations.SrlShiftsZerosIn := fun rd rt shamt =>
  ⟨encodes_fields (.srl rd rt shamt), decodesTo_sources (.srl rd rt shamt),
    resultPassage_of_dest rfl rfl fun s hfill => by rw [aluResult_srl, hfill, shiftRight_zero_eq_div]⟩

end Sys2Proof.Machine
end

section
/-! The load and the store: the family 44_memory_access. -/

namespace Sys2Proof.Machine

/-! ### The memory port as one equation each way (R32, R33) -/

theorem memRead_eq_ite (n : Nat) (m : Memory) (a : Word) :
    memRead n m a = if 0 ≤ widx a ∧ widx a < n then Memory.read m (widx a).toNat else 0#32 := by
  split
  · next h => exact memRead_inside h
  · next h => exact memRead_outside h

/-- A store replaces the word its address names, if any, and no other. -/
theorem read_memWrite {n : Nat} {m : Memory} (hm : Memory.wf m = true) (a v : Word) (k : Nat) :
    Memory.read (memWrite n m a v) k = if place n a = some k then v else Memory.read m k := by
  split
  · next h =>
    rw [memWrite, h]
    exact read_write_same_word hm
  · next h => exact memWrite_other h

/-! ### The cycles after Execute (R70) -/

/-- A valid instruction keeps the machine running until its Write-Back: the two steps after its Execute are cycles, and the first
of them takes it from EM through the Memory stage. -/
theorem exec_then_two_cycles {s : State} (himg : imageOk s.prog = true) (i : Instr) (hvalid : i.valid = true) :
    ∃ t1 t2 t3, exec i s = .next t1 ∧ step t1 = .next t2 ∧ step t2 = .next t3 ∧
      t1.em = ⟨i, aluResult i s, s.de.rtVal⟩ ∧
      t2.mem = storeStage s.memSize t1.mem t1.em ∧ t2.mw = memoryStage s.memSize t1.mem t1.em ∧
      exec t2.de.instr t2 = .next t3 := by
  obtain ⟨t1, h1, himg1⟩ := exec_completes_imageOk himg i
  obtain ⟨-, hsize, -⟩ := exec_sameProgram h1
  have hem := exec_em h1
  obtain ⟨t2, hs2, h2, himg2⟩ := step_completes_running himg1 (not_halted_of_em (by rw [hem, hvalid]))
  have hmw := exec_mw h2
  obtain ⟨t3, hs3, h3, -⟩ :=
    step_completes_running himg2 (not_halted_of_mw (by rw [hmw, memoryStage_instr, hem, hvalid]))
  exact ⟨t1, t2, t3, h1, hs2, hs3, hem, hsize ▸ exec_mem h2, hsize ▸ hmw, h3⟩

/-! ### LW and SW (R98, R99) -/

/-- Settles O26: LW has a destination, so it stores nothing; the Memory stage loads the word from the memory that the cycle before
left, and Write-Back commits it. -/
theorem lwLoadsTheWord : Obligations.LwLoadsTheWord := by
  intro rt base offset
  refine ⟨encodes_fields (.lw rt base offset), decodesTo_sources (.lw rt base offset), fun s himg => ?_⟩
  obtain ⟨t1, t2, t3, h1, hs2, hs3, hem, hmem, hmw, h3⟩ := exec_then_two_cycles himg (.lw rt base offset) rfl
  have hdest : dest (.lw rt base offset) = some rt := rfl
  have hlw : t1.em.instr = .lw rt base offset := by rw [hem]
  have hmwlw : t2.mw.instr = .lw rt base offset := by rw [hmw, memoryStage_instr, hlw]
  refine ⟨t1, t2, t3, h1, hs2, hs3, ?_, exec_notSquashed h1 rfl, ?_, t2.mw.memData, ?_, ?_, fun r => ?_⟩
  · rw [hem, s32_add_toInt]
    rfl
  · rw [hmem, storeStage_of_dest (hlw ▸ hdest)]
  · rw [hmw, hem]
    rfl
  · rw [hmw, memoryStage_memData, loadedWord_of_lw hlw, memRead_eq_ite]
    rfl
  · rw [exec_reg_of_dest h3 (hmwlw ▸ hdest), committed_of_lw hmwlw]

/-- Settles O27: the Memory stage writes the one word the address names into the memory that the cycle before left, still in
canonical form; SW has no destination, so Write-Back commits nothing. -/
theorem swStoresTheWord : Obligations.SwStoresTheWord := by
  intro rt base offset
  refine ⟨encodes_fields (.sw rt base offset), decodesTo_sources (.sw rt base offset), fun s himg hwf => ?_⟩
  obtain ⟨t1, t2, t3, h1, hs2, hs3, hem, hmem, hmw, h3⟩ := exec_then_two_cycles himg (.sw rt base offset) rfl
  have hsw : t1.em.instr = .sw rt base offset := by rw [hem]
  have hmwsw : t2.mw.instr = .sw rt base offset := by rw [hmw, memoryStage_instr, hsw]
  have hwf1 : Memory.wf t1.mem = true := exec_mem h1 ▸ storeStage_wf hwf
  refine ⟨t1, t2, t3, h1, hs2, hs3, ?_, exec_notSquashed h1 rfl, fun k => ?_, ?_, ?_⟩
  · rw [hem, s32_add_toInt]
    rfl
  · rw [State.word, hmem, storeStage_of_sw hsw, read_memWrite hwf1, hem]
    rfl
  · rw [hmw, memoryStage, loadedWord_of_not_load (hsw ▸ rfl), hem]
  · exact exec_regs_of_no_dest h3 (hmwsw ▸ rfl)

end Sys2Proof.Machine
end

section
/-! The branch and the jump: the family 45_branch_jump. -/

namespace Sys2Proof.Machine

/-! ### What BEQ, J and bubbles leave alone (R73, R74) -/

theorem dest_of_computesNothing {i : Instr} (h : computesNothing i = true) : dest i = none := by
  cases i
  case beq | j | nop => rfl
  all_goals cases h

theorem storeStage_of_computesNothing {l : EMLatch} (h : computesNothing l.instr = true) (n : Nat) (m : Memory) :
    storeStage n m l = m :=
  storeStage_of_not_store fun rt base offset hsw => by simp [hsw, computesNothing] at h

/-- From EM on, BEQ, J and bubbles commit nothing. A bubble does not keep the machine running, so the machine may halt on the way:
then its steps change nothing at all. -/
theorem commitsNothing_of_em {s : State} (himg : imageOk s.prog = true) (hem : computesNothing s.em.instr = true) :
    CommitsNothing s := by
  cases hrun : halted s with
  | true =>
    have hs := step_halted himg hrun
    exact ⟨s, s, hs, rfl, hs, rfl⟩
  | false =>
    obtain ⟨t, hst, ht, himgt⟩ := step_completes_running himg hrun
    have hmem : t.mem = s.mem := by rw [exec_mem ht, storeStage_of_computesNothing hem]
    cases hrunt : halted t with
    | true => exact ⟨t, t, hst, hmem, step_halted himgt hrunt, rfl⟩
    | false =>
      obtain ⟨u, hsu, hu, -⟩ := step_completes_running himgt hrunt
      have hdest : dest t.mw.instr = none := by rw [exec_mw ht, memoryStage_instr, dest_of_computesNothing hem]
      exact ⟨t, u, hst, hmem, hsu, exec_regs_of_no_dest hu hdest⟩

/-- The Execute of BEQ, J or a bubble completes with result 0 in EM, and the instruction commits nothing. -/
theorem exec_of_computesNothing {s : State} (himg : imageOk s.prog = true) {i : Instr} (h : computesNothing i = true) :
    ∃ t, exec i s = .next t ∧ t.em = ⟨i, 0#32, s.de.rtVal⟩ ∧ CommitsNothing t := by
  obtain ⟨t, ht, himgt⟩ := exec_completes_imageOk himg i
  have hem : t.em = ⟨i, 0#32, s.de.rtVal⟩ := by rw [exec_em ht, aluResult_computesNothing h]
  exact ⟨t, ht, hem, commitsNothing_of_em himgt (by rw [hem, h])⟩

/-! ### The branch decision (R75, R78) -/

theorem exec_squashed {i : Instr} {s t : State} {target : Word} (h : exec i s = .next t)
    (hbranch : branchOf i s.de = some target) : Squashed t target := by
  obtain ⟨f, -, rfl⟩ := exec_next_iff.1 h
  rw [hbranch]
  exact ⟨rfl, rfl, rfl⟩

theorem branchOf_beq_of_eq {rs rt : Reg} {address : Word} {l : DELatch} (h : l.rsVal = l.rtVal) :
    branchOf (.beq rs rt address) l = some address := if_pos h

theorem branchOf_beq_of_ne {rs rt : Reg} {address : Word} {l : DELatch} (h : l.rsVal ≠ l.rtVal) :
    branchOf (.beq rs rt address) l = none := if_neg h

/-! ### BEQ and J (R100, R101) -/

/-- Settles O28: BEQ computes and commits nothing; equal operands decide the branch, which flushes, and others leave Decode and Fetch
their work. -/
theorem beqBranchesOnEquality : Obligations.BeqBranchesOnEquality := by
  intro rs rt address
  refine ⟨encodes_fields (.beq rs rt address), decodesTo_sources (.beq rs rt address), fun s himg => ?_⟩
  obtain ⟨t, ht, hem, hcommits⟩ := exec_of_computesNothing himg (i := .beq rs rt address) rfl
  exact ⟨t, ht, hem, fun heq => exec_squashed ht (branchOf_beq_of_eq heq),
    fun hne => exec_notSquashed ht (branchOf_beq_of_ne hne), hcommits⟩

/-- Settles O29: as O28, with the branch to the whole address decided whatever the operands; J has no source, so Decode latches
zeros. -/
theorem jumpAlwaysRedirects : Obligations.JumpAlwaysRedirects := by
  intro address
  refine ⟨encodes_fields (.j address), decodesTo_sources (.j address), fun s himg => ?_⟩
  obtain ⟨t, ht, hem, hcommits⟩ := exec_of_computesNothing himg (i := .j address) rfl
  exact ⟨t, ht, hem, exec_squashed ht rfl, hcommits⟩

end Sys2Proof.Machine
end

section
/-! NOP: the family 46_nop. -/

namespace Sys2Proof.Machine

/-! ### The all-zero word (R53) -/

theorem decode_bubbleWord : decode bubbleWord = .ok .nop := rfl

/-! ### Fetch of a word (R77) -/

theorem fetchStage_of_decode {prog : List InstrWord} {pc : Word} {w : InstrWord} {k : Instr}
    (hw : wordAt prog pc = some w) (hk : decode w = .ok k) :
    fetchStage prog pc = .ok ⟨⟨k, pc + 1#32⟩, pc + 1#32⟩ := by
  simp [fetchStage, hw, hk]

/-- Without a flush, a cycle that completes leaves the fetched instruction in FD and `pc` one further. -/
theorem exec_fetches {i k : Instr} {s t : State} {w : InstrWord} (h : exec i s = .next t)
    (hbranch : branchOf i s.de = none) (hw : wordAt s.prog s.pc = some w) (hk : decode w = .ok k) :
    t.fd = ⟨k, s.pc + 1#32⟩ ∧ t.pc = s.pc + 1#32 := by
  obtain ⟨-, hfetch⟩ := exec_notSquashed h hbranch
  rw [fetchStage_of_decode hw hk] at hfetch
  injection hfetch with hfetched
  injection hfetched with hfd hpc
  exact ⟨hfd.symm, hpc.symm⟩

/-! ### NOP (R102) -/

/-- Settles O30: the all-zero word decodes to NOP and is fetched as any word is; Decode finds no source and
latches zeros; Execute computes 0 and decides no branch, so nothing is squashed; and NOP commits nothing. -/
theorem nopHasNoEffect : Obligations.NopHasNoEffect := by
  refine ⟨encodes_fields .nop, decode_bubbleWord, rfl, fun i s himg hbranch hw => ?_, decodesTo_sources .nop,
    fun s himg => ?_⟩
  · obtain ⟨t, ht, -⟩ := exec_completes_imageOk himg i
    exact ⟨t, ht, exec_fetches ht hbranch hw decode_bubbleWord⟩
  · obtain ⟨t, ht, hem, hcommits⟩ := exec_of_computesNothing himg (i := .nop) rfl
    exact ⟨t, ht, hem, exec_notSquashed ht rfl, hcommits⟩

end Sys2Proof.Machine
end

section
/-! The cycle counter: the family 60_exceptions. -/

namespace Sys2Proof.Machine

/-! ### Nothing in a cycle reads the count (R120) -/

theorem aluResult_with_cycles (i : Instr) (s : State) (c : Nat) :
    aluResult i { s with cycles := c } = aluResult i s := by
  cases i <;> rfl

theorem flush_with_cycles (b : Branch) (s : State) (c : Nat) :
    flush b { s with cycles := c } = { flush b s with cycles := c } := by
  cases b <;> rfl

/-- With another count a cycle is the same but for its own count: `advance` reads the count only to write its successor, and neither
Fetch nor Execute nor the flush reads it. -/
theorem exec_with_cycles {i : Instr} {s t : State} (h : exec i s = .next t) (c : Nat) :
    exec i { s with cycles := c } = .next { t with cycles := c + 1 } := by
  obtain ⟨f, hf, rfl⟩ := exec_next_iff.1 h
  refine exec_next_iff.2 ⟨f, hf, ?_⟩
  rw [aluResult_with_cycles, ← flush_with_cycles]
  rfl

/-! ### The count of a step (R120) -/

theorem step_cycles {s t : State} (h : step s = .next t) :
    t.cycles = if halted s then s.cycles else s.cycles + 1 := by
  obtain ⟨-, ⟨hhalted, rfl⟩ | ⟨hrunning, he⟩⟩ := step_cases h
  · rw [if_pos hhalted]
  · rw [if_neg (by simp [hrunning]), exec_cycles he]

/-- Settles O6: reset starts the count at 0; a completed cycle advances it and is otherwise independent of it; and a step is such a
cycle unless the machine is halted. -/
theorem cycleCounterCounts : Obligations.CycleCounterCounts :=
  ⟨rfl, fun _ _ _ h => ⟨exec_cycles h, exec_with_cycles h⟩, fun _ _ => step_cycles⟩

end Sys2Proof.Machine
end

section
/-! Encoding and decoding are inverse to each other (R45, R50, R62, D10). -/

namespace Sys2Proof

/-! ### Decoding what was encoded -/

/-- The fields of an admitted instruction decode to it: the opcode selects the instruction's own format, whose unused fields
are the ones the encoder left 0. -/
theorem decodeFields_fields {i : Instr} (h : i.wellFormed = true) : decodeFields i.fields = .ok i := by
  cases i with
  | nop | add | sub | mul | and | or | addi | lw | sw => rfl
  | sll | srl | beq | j => exact if_pos h

/-! ### Encoding what was decoded -/

theorem ite_ok_iff {ε α : Type} {p : Prop} [Decidable p] {a b : α} {e : ε} :
    (if p then .ok a else .error e : Except ε α) = .ok b ↔ p ∧ a = b := by
  by_cases h : p <;> simp [h]

theorem ite_ite_ok_iff {ε α : Type} {p q : Prop} [Decidable p] [Decidable q] {a b : α} {e e' : ε} :
    (if p then if q then .ok a else .error e else .error e' : Except ε α) = .ok b ↔ p ∧ q ∧ a = b := by
  by_cases h : p <;> simp [h, ite_ok_iff]

/-- Fields that decode are the fields of the instruction they decode to: the opcode names the format, and the format's checks
pin every field the instruction does not carry. -/
theorem fields_of_decodeFields {f : Fields} {i : Instr} (h : decodeFields f = .ok i) : i.fields = f := by
  obtain ⟨op, rs, rt, rd, z, imm, addr⟩ := f
  have hop : op = BitVec.ofNat 4 op.toNat := by simp
  unfold decodeFields at h
  split at h
  case h_1 hcode =>
    obtain ⟨⟨rfl, rfl, rfl, rfl, rfl, rfl⟩, rfl⟩ := ite_ok_iff.1 h
    rw [hop, hcode]
    rfl
  case h_2 hcode | h_3 hcode | h_4 hcode | h_5 hcode | h_6 hcode | h_7 hcode | h_10 hcode | h_11 hcode =>
    obtain ⟨⟨rfl, rfl, rfl⟩, rfl⟩ := ite_ok_iff.1 h
    rw [hop, hcode]
    rfl
  case h_8 hcode | h_9 hcode | h_12 hcode =>
    obtain ⟨⟨rfl, rfl, rfl⟩, -, rfl⟩ := ite_ite_ok_iff.1 h
    rw [hop, hcode]
    rfl
  case h_13 hcode =>
    obtain ⟨⟨rfl, rfl, rfl, rfl, rfl⟩, -, rfl⟩ := ite_ite_ok_iff.1 h
    rw [hop, hcode]
    rfl
  case h_14 => cases h

end Sys2Proof

namespace Sys2Proof.Machine

/-- Settles O36: the encoded word has the instruction's fields, and these decode to it. -/
theorem decodeOfEncode : Obligations.DecodeOfEncode := by
  intro i h
  rw [decode, unpack_encode, decodeFields_fields h]

/-- Settles O37: the word and the encoding have the same fields, so they are one word. -/
theorem encodeOfDecode : Obligations.EncodeOfDecode := by
  intro w i h
  apply unpack_inj
  rw [unpack_encode, fields_of_decodeFields h]

/-- Settles O35, by evaluating both directions on the three printed words. -/
theorem workedEncodings : Obligations.WorkedEncodings := by
  refine ⟨rfl, rfl, rfl, rfl, rfl, rfl⟩

end Sys2Proof.Machine
end

section
/-! The assembler: every image it emits is well-formed (R57, R60 to R64). -/

namespace Sys2Proof.Machine

/-! ### Operands: what an accepted line holds (R62, R63) -/

/-- Every label is bound to an index within the bound (R64). -/
def LabelsWithin (bound : Nat) (labels : Labels) : Prop := ∀ l n, labels.lookup l = some n → n ≤ bound

theorem asmR_wellFormed {make : Reg → Reg → Reg → Instr} {ops : List Line} {i : Instr}
    (hmake : ∀ rd rs rt, (make rd rs rt).wellFormed = true) (h : asmR make ops = .ok i) : i.wellFormed = true := by
  unfold asmR at h
  split at h
  · split at h
    · cases h; exact hmake _ _ _
    · cases h
  · cases h

theorem asmI_wellFormed {make : Reg → Reg → Word → Instr} {ops : List Line} {i : Instr}
    (hmake : ∀ rt rs imm, (make rt rs imm).wellFormed = true) (h : asmI make ops = .ok i) : i.wellFormed = true := by
  unfold asmI at h
  split at h
  · split at h
    · cases h; exact hmake _ _ _
    all_goals cases h
  · cases h

/-- The assembler checks the shift amount as the loader does (R63, D6). -/
theorem asmS_wellFormed {make : Reg → Reg → Word → Instr} {ops : List Line} {i : Instr}
    (hmake : ∀ rd rt shamt, shiftAmountOk shamt = true → (make rd rt shamt).wellFormed = true)
    (h : asmS make ops = .ok i) : i.wellFormed = true := by
  unfold asmS at h
  split at h
  · split at h
    · split at h
      · next hshamt => cases h; exact hmake _ _ _ hshamt
      · cases h
    all_goals cases h
  · cases h

theorem asmM_wellFormed {make : Reg → Reg → Word → Instr} {ops : List Line} {i : Instr}
    (hmake : ∀ rt base offset, (make rt base offset).wellFormed = true) (h : asmM make ops = .ok i) :
    i.wellFormed = true := by
  unfold asmM at h
  split at h
  · split at h
    · cases h; exact hmake _ _ _
    all_goals cases h
  · cases h

/-- An index of an admitted program is a word without a sign bit (R14, D15). -/
theorem toInt_ofNat_of_le {n : Nat} (h : n ≤ Config.maxProgLen) : (BitVec.ofNat 32 n).toInt = n := by
  simp only [Config.maxProgLen] at h
  rw [BitVec.toInt_eq_toNat_cond, BitVec.toNat_ofNat, Nat.mod_eq_of_lt (by omega), if_pos (by omega)]

theorem resolve_targetOk {labels : Labels} {l : Line} {address : Word} (hl : LabelsWithin Config.maxProgLen labels)
    (h : resolve labels l = .ok address) : targetOk address = true := by
  unfold resolve at h
  split at h
  · next n hn => cases h; exact targetOk_iff.2 (by simp [toInt_ofNat_of_le (hl l n hn)])
  · cases h

theorem asmB_wellFormed {labels : Labels} {ops : List Line} {i : Instr} (hl : LabelsWithin Config.maxProgLen labels)
    (h : asmB labels ops = .ok i) : i.wellFormed = true := by
  unfold asmB at h
  split at h
  · split at h
    · next hr => cases h; exact resolve_targetOk hl hr
    all_goals cases h
  · cases h

theorem asmJ_wellFormed {labels : Labels} {ops : List Line} {i : Instr} (hl : LabelsWithin Config.maxProgLen labels)
    (h : asmJ labels ops = .ok i) : i.wellFormed = true := by
  unfold asmJ at h
  split at h
  · split at h
    · next hr => cases h; exact resolve_targetOk hl hr
    · cases h
  · cases h

theorem asmN_wellFormed {ops : List Line} {i : Instr} (h : asmN ops = .ok i) : i.wellFormed = true := by
  unfold asmN at h
  split at h
  · cases h; rfl
  · cases h

/-! ### Lines (R60, R62) -/

/-- Whatever mnemonic a line has, its operands parse to an admitted instruction or not at all. -/
theorem mnemonics_wellFormed {labels : Labels} (hl : LabelsWithin Config.maxProgLen labels)
    {entry : Line × (List Line → Except AsmError Instr)} (hentry : entry ∈ mnemonics labels) {ops : List Line} {i : Instr}
    (h : entry.2 ops = .ok i) : i.wellFormed = true := by
  simp only [mnemonics, List.mem_cons, List.not_mem_nil, or_false] at hentry
  rcases hentry with rfl | rfl | rfl | rfl | rfl | rfl | rfl | rfl | rfl | rfl | rfl | rfl | rfl
  iterate 5 exact asmR_wellFormed (fun _ _ _ => rfl) h
  · exact asmI_wellFormed (fun _ _ _ => rfl) h
  iterate 2 exact asmS_wellFormed (fun _ _ _ hshamt => by exact hshamt) h
  iterate 2 exact asmM_wellFormed (fun _ _ _ => rfl) h
  · exact asmB_wellFormed hl h
  · exact asmJ_wellFormed hl h
  · exact asmN_wellFormed h

theorem asmLine_wellFormed {labels : Labels} (hl : LabelsWithin Config.maxProgLen labels) {body : Line} {i : Instr}
    (h : asmLine labels body = .ok i) : i.wellFormed = true := by
  unfold asmLine at h
  split at h
  · cases h; rfl
  · split at h
    · next parse hparse =>
      obtain ⟨before, after, hsplit, -⟩ := List.lookup_eq_some_iff.1 hparse
      exact mnemonics_wellFormed hl (hsplit ▸ List.mem_append_right before List.mem_cons_self) h
    · cases h

theorem asmLines_ok {labels : Labels} (hl : LabelsWithin Config.maxProgLen labels) {bodies : List Line}
    {is : List Instr} (h : asmLines labels bodies = .ok is) :
    is.length = bodies.length ∧ ∀ i ∈ is, i.wellFormed = true := by
  induction bodies generalizing is with
  | nil => cases h; simp
  | cons body rest ih =>
    unfold asmLines at h
    split at h
    · cases h
    · next i hi =>
      split at h
      · next is' his' =>
        cases h
        obtain ⟨hlen, hwf⟩ := ih his'
        exact ⟨by simp [hlen], List.forall_mem_cons.2 ⟨asmLine_wellFormed hl hi, hwf⟩⟩
      · cases h

/-! ### The first pass (R64) -/

theorem LabelsWithin.mono {a b : Nat} {labels : Labels} (hab : a ≤ b) (h : LabelsWithin a labels) :
    LabelsWithin b labels := fun l n hn => (h l n hn).trans hab

theorem LabelsWithin.cons {bound : Nat} {labels : Labels} (h : LabelsWithin bound labels) (name : Line) {n : Nat}
    (hn : n ≤ bound) : LabelsWithin bound ((name, n) :: labels) := by
  intro l k hk
  rw [List.lookup_cons] at hk
  split at hk
  · cases hk; exact hn
  · exact h l k hk

/-- The first pass binds a label to the number of instruction lines before it, so to no more than there are in the end. -/
theorem firstPass_labelsWithin {labels : Labels} {bodies text : List Line} {result : Labels × List Line}
    (hl : LabelsWithin bodies.length labels) (h : firstPass labels bodies text = .ok result) :
    LabelsWithin result.2.length result.1 := by
  have hgrow (bodies : List Line) (line : Line) :
      bodies.length ≤ (if line = [] then bodies else bodies ++ [line]).length := by
    split <;> simp
  induction text generalizing labels bodies with
  | nil => cases h; exact hl
  | cons raw rest ih =>
    unfold firstPass at h
    split at h
    · split at h
      · cases h
      · exact ih ((hl.cons _ le_rfl).mono (hgrow _ _)) h
    · exact ih (hl.mono (hgrow _ _)) h

/-- Settles O50: the encoded instructions are admitted, so their words decode, and there are as many as lines. -/
theorem assembledImageIsWellFormed : Obligations.AssembledImageIsWellFormed := by
  intro text image h
  unfold assemble at h
  split at h
  · cases h
  · next labels bodies hpass =>
    split at h
    · next hlen =>
      split at h
      · next is his =>
        cases h
        have hl := firstPass_labelsWithin (fun _ _ hn => by simp at hn) hpass
        obtain ⟨hcount, hwf⟩ := asmLines_ok (hl.mono hlen) his
        refine imageOk_iff.2 ⟨by simpa [hcount] using hlen, List.forall_mem_map.2 fun i hi => ⟨i, ?_⟩⟩
        exact decodeOfEncode i (hwf i hi)
      · cases h
    · cases h

/-- Settles O51, by evaluating the parser on the eleven tokens. -/
theorem registerTokens : Obligations.RegisterTokens :=
  ⟨rfl, rfl, rfl, rfl, rfl, rfl, rfl, rfl, rfl, rfl, rfl⟩

end Sys2Proof.Machine
end

section
/-! The invariant of the machine (R14, R15, R18 to R21) and the halt (R136, D17). -/

namespace Sys2Proof.Machine

/-! ### What it says of each latch -/

theorem fdOk_iff {pc : Word} {l : FDLatch} :
    fdOk pc l = true ↔ l.instr.wellFormed = true ∧ (l = FDLatch.empty ∨ l.npc = pc) := by
  simp [fdOk]

theorem deOk_iff {l : DELatch} :
    deOk l = true ↔ l.instr.wellFormed = true ∧ l.imm = immField l.instr ∧ sourceOk (rsSource l.instr) l.rsVal = true ∧
      sourceOk (rtSource l.instr) l.rtVal = true := by
  simp [deOk, and_assoc]

theorem emOk_iff {l : EMLatch} :
    emOk l = true ↔ l.instr.wellFormed = true ∧ sourceOk (rtSource l.instr) l.rtVal = true ∧
      (computesNothing l.instr = true → l.aluResult = 0#32) := by
  cases h : computesNothing l.instr <;> simp [emOk, h, and_assoc]

theorem mwOk_iff {l : MWLatch} :
    mwOk l = true ↔ emOk ⟨l.instr, l.aluResult, l.rtVal⟩ = true ∧ (isLoad l.instr = false → l.memData = 0#32) := by
  cases h : isLoad l.instr <;> simp [mwOk, emOk, h]

@[simp] theorem sourceOk_none {v : Word} : sourceOk none v = true ↔ v = 0#32 := decide_eq_true_iff

/-! ### What Fetch and Execute keep of it -/

/-- Fetch leaves `pc` non-negative: it stays, or moves on inside an image short enough (R14, R56). -/
theorem fetchStage_pc_nonneg {prog : List InstrWord} {pc : Word} {f : Fetched} (himg : imageOk prog = true)
    (hpc : 0 ≤ pc.toInt) (h : fetchStage prog pc = .ok f) : 0 ≤ f.pc.toInt := by
  rcases fetchStage_cases h with ⟨-, rfl⟩ | ⟨w, i, hw, -, rfl⟩
  · exact hpc
  · obtain ⟨h0, hlt⟩ := inBounds_of_wordAt hw
    rw [toInt_pc_add_one h0 hlt (imageOk_iff.1 himg).1]
    omega

theorem fetchStage_fdOk {prog : List InstrWord} {pc : Word} {f : Fetched} (h : fetchStage prog pc = .ok f) :
    fdOk f.pc f.latch = true := by
  rcases fetchStage_cases h with ⟨-, rfl⟩ | ⟨w, i, -, hi, rfl⟩
  · rfl
  · exact fdOk_iff.2 ⟨decode_wellFormed hi, .inr rfl⟩

theorem sourceOk_sourceValue (x : RegFile) (source : Option Reg) : sourceOk source (sourceValue x source) = true := by
  cases source with
  | none => rfl
  | some r => by_cases h : r = 0#5 <;> simp [sourceOk, sourceValue, h]

theorem decodeStage_deOk {i : Instr} (h : i.wellFormed = true) (x : RegFile) : deOk (decodeStage x i) = true :=
  deOk_iff.2 ⟨h, rfl, sourceOk_sourceValue x _, sourceOk_sourceValue x _⟩

/-- Execute fills EM from DE: the `rt` value is handed on, and BEQ, J and bubbles compute 0 (R75, D14). -/
theorem execute_emOk {s : State} (h : deOk s.de = true) :
    emOk ⟨s.de.instr, aluResult s.de.instr s, s.de.rtVal⟩ = true := by
  obtain ⟨hwf, -, -, hrt⟩ := deOk_iff.1 h
  exact emOk_iff.2 ⟨hwf, hrt, aluResult_computesNothing⟩

/-- The Memory stage fills MW from EM and loads 0 unless EM holds LW (R74, D14). -/
theorem memoryStage_mwOk {n : Nat} {m : Memory} {l : EMLatch} (h : emOk l = true) : mwOk (memoryStage n m l) = true :=
  mwOk_iff.2 ⟨h, loadedWord_of_not_load⟩

/-- Where Execute takes a branch, `pc` is the target of an admitted BEQ or J and FD is empty; elsewhere both are Fetch's. -/
theorem exec_pc_fd {s t : State} (hinv : s.Inv) (h : exec s.de.instr s = .next t) :
    0 ≤ t.pc.toInt ∧ fdOk t.pc t.fd = true := by
  obtain ⟨f, hf, rfl⟩ := exec_next_iff.1 h
  cases hb : branchOf s.de.instr s.de with
  | none => exact ⟨fetchStage_pc_nonneg hinv.image hinv.pcNonneg hf, fetchStage_fdOk hf⟩
  | some target =>
    obtain ⟨hwf, -⟩ := deOk_iff.1 hinv.de
    exact ⟨branchOf_target hwf hb, rfl⟩

/-- A cycle of the instruction in DE keeps the invariant, latch by latch. -/
theorem exec_keeps_inv {s t : State} (hinv : s.Inv) (h : exec s.de.instr s = .next t) : t.Inv := by
  obtain ⟨hprog, hsize, -⟩ := exec_sameProgram h
  obtain ⟨hpc, hfd⟩ := exec_pc_fd hinv h
  refine ⟨hprog ▸ hinv.image, exec_mem h ▸ storeStage_wf hinv.memWf, ?_, hpc, hfd, ?_, exec_em h ▸ execute_emOk hinv.de,
    exec_mw h ▸ memoryStage_mwOk hinv.em⟩
  · rw [hsize, exec_mem h]
    exact storeStage_below hinv.memInside
  · obtain ⟨hwf, -⟩ := fdOk_iff.1 hinv.fd
    rw [exec_de h]
    split
    · exact decodeStage_deOk hwf _
    · rfl

/-- Settles O45: a step of a halted machine is no change, and any other is a cycle of the instruction in DE. -/
theorem invariantIsKept : Obligations.InvariantIsKept := by
  intro s t hinv h
  obtain ⟨-, ⟨-, rfl⟩ | ⟨-, he⟩⟩ := step_cases h
  · exact hinv
  · exact exec_keeps_inv hinv he

/-- The empty machine on an admitted image meets the invariant, whatever the parameters. -/
theorem reset_with_parameters_inv {image : List InstrWord} (himg : imageOk image = true) (n : Nat) (fill : SrlFill) :
    State.Inv { State.reset with prog := image, memSize := n, srlFill := fill } :=
  ⟨himg, rfl, rfl, le_rfl, rfl, rfl, rfl, rfl⟩

/-- Settles O46: both are the empty machine on an admitted image. -/
theorem invariantHoldsAtStart : Obligations.InvariantHoldsAtStart := by
  refine ⟨reset_with_parameters_inv rfl _ _, fun image n fill s h => ?_⟩
  obtain ⟨himg, -, rfl⟩ := load_ok_iff.1 h
  exact reset_with_parameters_inv himg n fill

/-! ### The halted machine (R136) -/

theorem pcInBounds_iff {prog : List InstrWord} {pc : Word} :
    pcInBounds prog pc = true ↔ 0 ≤ pc.toInt ∧ pc.toInt < prog.length := decide_eq_true_iff

theorem halted_iff (s : State) :
    halted s = true ↔
      ¬(0 ≤ s.pc.toInt ∧ s.pc.toInt < s.prog.length) ∧ s.fd.instr = .nop ∧ s.de.instr = .nop ∧ s.em.instr = .nop ∧
        s.mw.instr = .nop := by
  simp [halted, valid_eq_false, ← pcInBounds_iff, and_assoc]

/-- Outside the program there is no word at `pc`. -/
theorem wordAt_eq_none {prog : List InstrWord} {pc : Word} (h : ¬(0 ≤ pc.toInt ∧ pc.toInt < prog.length)) :
    wordAt prog pc = none := by
  rw [← pcInBounds_iff] at h
  exact if_neg h

theorem fetchStage_outside {prog : List InstrWord} {pc : Word} (h : ¬(0 ≤ pc.toInt ∧ pc.toInt < prog.length)) :
    fetchStage prog pc = .ok ⟨FDLatch.empty, pc⟩ := by
  simp [fetchStage, wordAt_eq_none h]

/-! A latch that holds NOP and the values the stages define is the empty latch. -/

theorem de_eq_empty {l : DELatch} (h : deOk l = true) (hi : l.instr = .nop) : l = DELatch.empty := by
  obtain ⟨i, rsVal, rtVal, imm⟩ := l
  obtain rfl : i = .nop := hi
  obtain ⟨-, himm, hrs, hrt⟩ := deOk_iff.1 h
  obtain rfl : imm = 0#32 := himm
  obtain rfl : rsVal = 0#32 := sourceOk_none.1 hrs
  obtain rfl : rtVal = 0#32 := sourceOk_none.1 hrt
  rfl

theorem em_eq_empty {l : EMLatch} (h : emOk l = true) (hi : l.instr = .nop) : l = EMLatch.empty := by
  obtain ⟨i, aluResult, rtVal⟩ := l
  obtain rfl : i = .nop := hi
  obtain ⟨-, hrt, halu⟩ := emOk_iff.1 h
  obtain rfl : aluResult = 0#32 := halu rfl
  obtain rfl : rtVal = 0#32 := sourceOk_none.1 hrt
  rfl

theorem mw_eq_empty {l : MWLatch} (h : mwOk l = true) (hi : l.instr = .nop) : l = MWLatch.empty := by
  obtain ⟨i, aluResult, rtVal, memData⟩ := l
  obtain rfl : i = .nop := hi
  obtain ⟨hem, hmem⟩ := mwOk_iff.1 h
  obtain ⟨-, rfl, rfl⟩ := EMLatch.mk.inj (em_eq_empty hem rfl)
  obtain rfl : memData = 0#32 := hmem rfl
  rfl

/-- The cycle of a halted machine that meets the invariant moves empty latches along; Fetch, outside the program, empties FD. -/
theorem exec_of_halted {s : State} (hinv : s.Inv) (h : halted s = true) :
    exec s.de.instr s = .next { s with cycles := s.cycles + 1, fd := ⟨.nop, 0#32⟩ } := by
  obtain ⟨hpc, hfd, hde, hem, hmw⟩ := (halted_iff s).1 h
  replace hde := de_eq_empty hinv.de hde
  replace hem := em_eq_empty hinv.em hem
  replace hmw := mw_eq_empty hinv.mw hmw
  refine exec_next_iff.2 ⟨_, fetchStage_outside hpc, ?_⟩
  obtain ⟨regs, pc, mem, ⟨fdi, npc⟩, de, em, mw, cycles, prog, memSize, srlFill⟩ := s
  subst hde hem hmw hfd
  rfl

/-- Settles O4: the definition of the halt, its cycle, its step, and the empty program, which `pc` is never inside. -/
theorem haltedIsAFixedPoint : Obligations.HaltedIsAFixedPoint := by
  refine ⟨halted_iff, fun s => exec_of_halted, fun s => step_halted, fun n fill s h => ?_⟩
  obtain ⟨-, -, rfl⟩ := load_ok_iff.1 h
  rfl

end Sys2Proof.Machine
end

section
/-! Steps and runs: rejected images, the halt, the timetable of a fetched word, the drain (R56, R81, R113, R123, R138). -/

namespace Sys2Proof.Machine

/-! ### Images (R56, R113) -/

theorem checkImage_of_not_imageOk {image : List InstrWord} (h : imageOk image = false) :
    ∃ e, checkImage image = .error e := by
  unfold imageOk at h
  split at h
  · cases h
  · next e he => exact ⟨e, he⟩

/-- Settles O2: load and step both start with the check of the image. -/
theorem rejectedImageNeverRuns : Obligations.RejectedImageNeverRuns := by
  intro image h
  obtain ⟨e, he⟩ := checkImage_of_not_imageOk h
  refine ⟨fun n fill => ⟨e, by rw [load, he]⟩, ?_⟩
  rintro s rfl
  exact ⟨e, by rw [step, he]⟩

/-- On an admitted image a step answers a state, on the same image. -/
theorem step_completes {s : State} (himg : imageOk s.prog = true) : ∃ t, step s = .next t ∧ imageOk t.prog = true := by
  cases hh : halted s with
  | true => exact ⟨s, step_halted himg hh, himg⟩
  | false =>
    obtain ⟨t, hst, -, himgt⟩ := step_completes_running himg hh
    exact ⟨t, hst, himgt⟩

/-- Settles O3, by induction on the length of the run. -/
theorem admittedImageAlwaysSteps : Obligations.AdmittedImageAlwaysSteps := by
  intro s himg n
  induction n generalizing s with
  | zero => exact ⟨s, rfl⟩
  | succ n ih =>
    obtain ⟨u, hsu, himgu⟩ := step_completes himg
    obtain ⟨t, ht⟩ := ih u himgu
    exact ⟨t, run_succ_next_iff.2 ⟨u, hsu, ht⟩⟩

/-- Settles O5: a halted machine is a fixed point of step, so of any number of steps. -/
theorem haltIsFinal : Obligations.HaltIsFinal := by
  intro s himg hh n
  induction n with
  | zero => rfl
  | succ n ih => exact run_succ_next_iff.2 ⟨s, step_halted himg hh, ih⟩

/-! ### A word placed by the host -/

theorem not_halted_of_inBounds {s : State} (h : 0 ≤ s.pc.toInt ∧ s.pc.toInt < s.prog.length) : halted s = false := by
  simp [halted, pcInBounds_iff.2 h]

/-- A word that decodes leaves an admitted image admitted, in whose bounds `pc` then is. -/
theorem placeWord_ok {prog : List InstrWord} {w : InstrWord} {i : Instr} (himg : imageOk prog = true)
    (hlen : prog.length < Config.maxProgLen) (hi : decode w = .ok i) (pc : Word) :
    imageOk (placeWord prog pc w).1 = true ∧ 0 ≤ (placeWord prog pc w).2.toInt ∧
      (placeWord prog pc w).2.toInt < (placeWord prog pc w).1.length := by
  obtain ⟨-, hdec⟩ := imageOk_iff.1 himg
  unfold placeWord
  split
  · next hin =>
    refine ⟨imageOk_iff.2 ⟨by simpa using hlen.le, fun v hv => ?_⟩, by simpa using pcInBounds_iff.1 hin⟩
    obtain hv | rfl := List.mem_or_eq_of_mem_set hv
    · exact hdec v hv
    · exact ⟨i, hi⟩
  · refine ⟨imageOk_iff.2 ⟨by simpa using hlen, fun v hv => ?_⟩, ?_⟩
    · obtain hv | rfl := List.mem_append.1 hv |>.imp_right List.mem_singleton.1
      · exact hdec v hv
      · exact ⟨i, hi⟩
    · simp [toInt_ofNat_of_le hlen.le]

/-- Settles O7: step is defined so; and the placed word is inside an admitted image, so the machine has not halted and runs the
instruction latched with it. -/
theorem stepExecutesLatchedInstruction : Obligations.StepExecutesLatchedInstruction := by
  refine ⟨fun s => step_running, fun s w i himg hlen hw hi => ?_⟩
  have hword : s.withFetchWord 96 w = s.withWord (BitVec.ofNat 96 w) := by
    rw [State.withFetchWord, Nat.mod_eq_of_lt hw]
  obtain ⟨himg', hin⟩ := placeWord_ok himg hlen hi s.pc
  have hde : (s.withFetchWord 96 w).de = decodeStage s.regs i := by simp [hword, latchWord, hi]
  refine ⟨hde, ?_⟩
  rw [step_running (hword ▸ himg') (not_halted_of_inBounds (hword ▸ hin)), hde]
  rfl

/-! ### The timetable of a fetched word (R81) -/

/-- Decode of the instruction in FD, by a step without a flush: a halted machine has its bubble decoded already. -/
theorem step_decodes {s t : State} (hde : s.de.instr = .nop → s.fd.instr = .nop → s.de = DELatch.empty)
    (hbranch : branchNow s = none) (h : step s = .next t) : t.de = decodeStage t.regs s.fd.instr := by
  obtain ⟨-, ⟨hh, rfl⟩ | ⟨-, he⟩⟩ := step_cases h
  · obtain ⟨-, hfdi, hdei, -⟩ := (halted_iff t).1 hh
    rw [hde hdei hfdi, hfdi, decodeStage_nop]
  · exact (exec_notSquashed he hbranch).1

/-- Settles O8: Fetch puts the word in FD, the next cycle decodes it into DE, and a step runs what is in DE. -/
theorem fetchedWordReachesExecute : Obligations.FetchedWordReachesExecute := by
  intro s w i t1 t2 hw hi hb hs hb1 hs1
  obtain ⟨-, ⟨hh, -⟩ | ⟨-, he⟩⟩ := step_cases hs
  · simp [not_halted_of_inBounds (inBounds_of_wordAt hw)] at hh
  obtain ⟨hfd, hpc⟩ := exec_fetches he hb hw hi
  have hde1 := (exec_notSquashed he hb).1
  have hde : t2.de = decodeStage t2.regs i := by
    have hempty : t1.de.instr = .nop → t1.fd.instr = .nop → t1.de = DELatch.empty := by
      intro hnop _
      rw [hde1] at hnop ⊢
      obtain hnop : s.fd.instr = .nop := hnop
      rw [hnop, decodeStage_nop]
    rw [step_decodes hempty hb1 hs1, hfd]
  obtain ⟨himg, -⟩ := step_cases hs1
  obtain ⟨hprog, -⟩ := step_sameProgram hs1
  refine ⟨hfd, hpc, hde, fun hrun => ?_⟩
  rw [step_running (hprog ▸ himg) hrun, hde]
  rfl

/-! ### The next `pc` (R14, R79) -/

/-- Settles O14: a flush sets `pc` to the target; otherwise it is where Fetch leaves it, and inside an admitted image the increment
stays in range. -/
theorem pcChangesInTwoWays : Obligations.PcChangesInTwoWays := by
  intro i s t himg h
  cases hb : branchOf i s.de with
  | some target => exact .inl ⟨target, rfl, (exec_squashed h hb).1⟩
  | none =>
    refine .inr ⟨rfl, ?_⟩
    obtain ⟨-, hfetch⟩ := exec_notSquashed h hb
    rcases fetchStage_cases hfetch with ⟨hnone, hf⟩ | ⟨w, k, hw, -, hf⟩
    all_goals obtain ⟨-, hpc⟩ := Fetched.mk.inj hf
    · rw [if_neg fun hin => wordAt_ne_none hin hnone, hpc]
    · obtain ⟨h0, hlt⟩ := inBounds_of_wordAt hw
      rw [if_pos ⟨h0, hlt⟩, hpc, toInt_pc_add_one h0 hlt (imageOk_iff.1 himg).1]

/-- Settles O42: the flush empties FD and DE and keeps the branch in EM, which keeps the machine running; the next cycle fetches at
the target and moves the two bubbles and the branch on. -/
theorem takenBranchCostsTwoSlots : Obligations.TakenBranchCostsTwoSlots := by
  intro i s target t1 himg hb h1
  obtain ⟨hpc, hfd, hde⟩ := exec_squashed h1 hb
  obtain ⟨hprog, -⟩ := exec_sameProgram h1
  have hemi : t1.em.instr = i := by rw [exec_em h1]
  have hvalid : i.valid = true := by
    rw [← Bool.not_eq_false, valid_eq_false]
    rintro rfl
    cases hb
  have hb1 : branchOf t1.de.instr t1.de = none := by rw [hde]; rfl
  obtain ⟨t2, hs2, h2, -⟩ := step_completes_running (hprog ▸ himg) (not_halted_of_em (hemi ▸ hvalid))
  obtain ⟨hde2, hfetch⟩ := exec_notSquashed h2 hb1
  refine ⟨t2, hs2, ?_, ?_, ?_, ?_⟩
  · rw [← hprog, ← hpc, hfetch]
  · rw [hde2, hfd, decodeStage_nop]
    rfl
  · rw [exec_em h2, hde]
  · rw [exec_mw h2, memoryStage_instr, hemi]

/-! ### What Decode latches (R76, R142) -/

/-- Settles O40: Decode reads FD and the registers after Write-Back of MW, and nothing else. -/
theorem decodeIgnoresInFlightResults : Obligations.DecodeIgnoresInFlightResults := by
  intro i i' s s' t t' hfd hmw hregs hb hb' h h'
  rw [(exec_notSquashed h hb).1, (exec_notSquashed h' hb').1, exec_regs h, exec_regs h', hfd, hmw, hregs]

/-- A register read in the cycle of a producer's Write-Back gives the value committed, and otherwise the register as it was. -/
theorem exec_read_source {i : Instr} {s t : State} {r : Reg} (hr : r ≠ 0#5) (h : exec i s = .next t) :
    (dest s.mw.instr = some r → sourceValue t.regs (some r) = committed s.mw) ∧
      (dest s.mw.instr ≠ some r → sourceValue t.regs (some r) = s.reg r) :=
  ⟨fun hd => (exec_reg_of_dest h hd r).trans (if_pos ⟨rfl, hr⟩), exec_reg_of_not_dest h⟩

/-- Settles O41: both operands latched are reads of the registers after Write-Back. -/
theorem consumerReadsCommittedValue : Obligations.ConsumerReadsCommittedValue := by
  intro i s t r hr hb h
  obtain ⟨hde, -⟩ := exec_notSquashed h hb
  have hread := exec_read_source hr h
  exact ⟨fun hrs => by simpa [hde, decodeStage, hrs] using hread,
    fun hrt => by simpa [hde, decodeStage, hrt] using hread⟩

/-! ### The drain (R138) -/

theorem branchOf_of_not_transfersControl {i : Instr} (h : transfersControl i = false) (l : DELatch) :
    branchOf i l = none := by
  cases i with
  | beq | j => cases h
  | _ => rfl

/-- The machine is outside its admitted program, at `pc`, and no BEQ or J in FD or DE can bring it back. -/
structure Draining (pc : Word) (s : State) : Prop where
  image : imageOk s.prog = true
  atPc : s.pc = pc
  outside : ¬(0 ≤ s.pc.toInt ∧ s.pc.toInt < s.prog.length)
  fd : transfersControl s.fd.instr = false
  de : transfersControl s.de.instr = false

/-- A step of such a machine: a bubble enters FD and the instructions move on by one latch, in a halted machine too, where all are
NOP. -/
theorem Draining.step_next {pc : Word} {s : State} (hs : Draining pc s) :
    ∃ t, step s = .next t ∧ Draining pc t ∧ t.fd.instr = .nop ∧ t.de.instr = s.fd.instr ∧ t.em.instr = s.de.instr ∧
      t.mw.instr = s.em.instr := by
  obtain ⟨himg, hat, hout, hfd, hde⟩ := hs
  cases hh : halted s with
  | true =>
    obtain ⟨-, hfdi, hdei, hemi, hmwi⟩ := (halted_iff s).1 hh
    exact ⟨s, step_halted himg hh, ⟨himg, hat, hout, hfd, hde⟩, hfdi, hdei.trans hfdi.symm, hemi.trans hdei.symm,
      hmwi.trans hemi.symm⟩
  | false =>
    obtain ⟨t, hst, ht, himgt⟩ := step_completes_running himg hh
    obtain ⟨hdet, hfetch⟩ := exec_notSquashed ht (branchOf_of_not_transfersControl hde s.de)
    rw [fetchStage_outside hout] at hfetch
    obtain ⟨hfdt, hpct⟩ := Fetched.mk.inj (Except.ok.inj hfetch)
    obtain ⟨hprog, -⟩ := exec_sameProgram ht
    have hfdi : t.fd.instr = .nop := by rw [← hfdt]; rfl
    have hdei : t.de.instr = s.fd.instr := by rw [hdet]; rfl
    exact ⟨t, hst, ⟨himgt, hpct ▸ hat, by rwa [hprog, ← hpct], by rw [hfdi]; rfl, by rw [hdei, hfd]⟩, hfdi, hdei,
      by rw [exec_em ht], by rw [exec_mw ht, memoryStage_instr]⟩

/-- Settles O48: with nothing fetched and no branch, each step empties one more latch. -/
theorem pipelineDrainsInFourCycles : Obligations.PipelineDrainsInFourCycles := by
  intro s himg hout hfd hde
  obtain ⟨t1, hs1, hd1, hfd1, -⟩ := Draining.step_next ⟨himg, rfl, hout, hfd, hde⟩
  obtain ⟨t2, hs2, hd2, hfd2, hde2, -⟩ := hd1.step_next
  obtain ⟨t3, hs3, hd3, hfd3, hde3, hem3, -⟩ := hd2.step_next
  obtain ⟨t4, hs4, hd4, hfd4, hde4, hem4, hmw4⟩ := hd3.step_next
  have hrun : run 4 s = .next t4 := by simp [run, hs1, hs2, hs3, hs4]
  refine ⟨t4, hrun, (halted_iff t4).2 ⟨hd4.outside, hfd4, ?_, ?_, ?_⟩, hd4.atPc⟩
  · rw [hde4, hfd3]
  · rw [hem4, hde3, hfd2]
  · rw [hmw4, hem3, hde2, hfd1]

end Sys2Proof.Machine
end

section
/-! Data memory seen by addresses, by a store and the load behind it (R37, R39), and SRL with the sign fill (D5). -/

namespace Sys2Proof.Machine

/-- Settles O52: in range the store is a write of the list, which keeps the form; out of range it is dropped. -/
theorem storeKeepsCanonicalForm : Obligations.StoreKeepsCanonicalForm := fun _ _ _ _ => memWrite_wf

/-- Settles O32: the word index is -1 or less up to -4, is 0 from -3 to 3, and the quotient by 4 from there on. -/
theorem addressMap : Obligations.AddressMap := by
  intro n a hn
  refine ⟨fun h => place_of_outside ?_, fun hlo hhi => ?_, fun hlo hhi => ?_, fun h => place_of_outside ?_⟩
  · rw [widx_of_neg (by omega)]
    omega
  · have hw : widx a = 0 := by
      rw [widx_of_neg (by omega)]
      omega
    rw [place_of_inside (by omega), hw]
    rfl
  · have hw := widx_of_nonneg hlo
    rw [place_of_inside (by omega), hw]
  · rw [widx_of_nonneg (by omega)]
    omega

/-- Settles O34: LW keeps the machine running, so the step after its Execute takes it through the Memory stage, with the memory
that the store has just left. -/
theorem storeIsSeenByTheNextLoad : Obligations.StoreIsSeenByTheNextLoad := by
  intro s t1 t2 rt base offset rt' base' offset' himg hwf hsw h1 hs2 hplace hsame
  have hlw : t1.em.instr = .lw rt' base' offset' := by rw [exec_em h1]
  obtain ⟨-, ⟨hh, -⟩ | ⟨-, h2⟩⟩ := step_cases hs2
  · simp [not_halted_of_em (s := t1) (by rw [hlw]; rfl)] at hh
  obtain ⟨k, hk⟩ := Option.ne_none_iff_exists'.1 hplace
  obtain ⟨-, hsize, -⟩ := exec_sameProgram h1
  calc t2.mw.memData
      = memRead t1.memSize t1.mem t1.em.aluResult := by rw [exec_mw h2, memoryStage_memData, loadedWord_of_lw hlw]
    _ = Memory.read t1.mem k := by rw [memRead, hsize, hsame, hk]
    _ = s.em.rtVal := by rw [exec_mem h1, storeStage_of_sw hsw, read_memWrite hwf, if_pos hk]

/-- A shift right that copies the sign bit is the quotient rounded down. -/
theorem shiftRight_sign_eq_div (a : Word) (n : Nat) : shiftRight .sign a n = s32 (a.toInt / 2 ^ n) := by
  have hdiv : a.toInt >>> n = a.toInt / 2 ^ n := by rw [Int.shiftRight_eq_div_pow]; norm_cast
  rw [shiftRight, s32, ← hdiv, ← BitVec.toInt_sshiftRight, BitVec.ofInt_toInt]

/-- Settles O25: SRL has a destination and is no load; where the fill is the sign, its ALU result is the signed quotient. -/
theorem srlCopiesTheSignWhereSet : Obligations.SrlCopiesTheSignWhereSet := fun rd rt shamt =>
  resultPassage_of_dest rfl rfl fun s hfill => by rw [aluResult_srl, hfill, shiftRight_sign_eq_div]

end Sys2Proof.Machine
end

section
/-! The pipeline against the sequential machine of R144: what the latches still have to do is done in program order, and without a
hazard Decode reads what the older instructions will have written. -/

namespace Sys2Proof.Machine

/-! ### The drained state, seen from the next cycle -/

/-- What Execute makes of the instruction in DE (R75). -/
def State.executed (s : State) : EMLatch := ⟨s.de.instr, aluResult s.de.instr s, s.de.rtVal⟩

/-- Registers and memory once the instructions in MW and EM have finished. -/
def State.retired (s : State) : RegFile × Memory := finishEM s.memSize s.em (writeBack s.mw s.regs) s.mem

/-- The drained state is the retired one after the instruction in DE has finished too. -/
theorem drained_eq (s : State) :
    s.drained = ⟨(finishEM s.memSize s.executed s.retired.1 s.retired.2).1, s.nextIndex,
      (finishEM s.memSize s.executed s.retired.1 s.retired.2).2⟩ := rfl

/-- One cycle later the instruction that was in DE is in EM. -/
theorem exec_retired {s t : State} (h : exec s.de.instr s = .next t) :
    t.retired = finishEM s.memSize s.executed s.retired.1 s.retired.2 := by
  obtain ⟨-, hsize, -⟩ := exec_sameProgram h
  rw [State.retired, hsize, exec_em h, exec_mw h, exec_regs h, exec_mem h]
  rfl

theorem drained_eq_of_exec {s t : State} (h : exec s.de.instr s = .next t) :
    s.drained = ⟨t.retired.1, s.nextIndex, t.retired.2⟩ := by
  rw [drained_eq, exec_retired h]

theorem finishEM_nop {l : EMLatch} (h : l.instr = .nop) (n : Nat) (x : RegFile) (m : Memory) :
    finishEM n l x m = (x, m) := by
  rw [finishEM, writeBack_of_no_dest (by rw [memoryStage_instr, h]; rfl), storeStage_of_computesNothing (by rw [h]; rfl)]

/-- A bubble in DE has nothing left to do. -/
theorem drained_of_bubble {t : State} (h : t.de.instr = .nop) :
    t.drained = ⟨t.retired.1, t.nextIndex, t.retired.2⟩ := by
  rw [drained_eq, finishEM_nop (show t.executed.instr = .nop from h)]

/-! ### One instruction, in the pipeline and in the sequential machine -/

/-- An instruction decoded from registers `x` leaves, from Execute on, the registers and memory it leaves in the sequential
machine. -/
theorem finishEM_executed {t : State} {i : Instr} {x : RegFile} (hde : t.de = decodeStage x i) (m : Memory) (p : Word) :
    finishEM t.memSize t.executed x m =
      ((seqExec t.memSize t.srlFill i ⟨x, p, m⟩).regs, (seqExec t.memSize t.srlFill i ⟨x, p, m⟩).mem) := by
  obtain ⟨_, _, _, _, de, _, _, _, _, n, fill⟩ := t
  obtain rfl : de = decodeStage x i := hde
  cases i <;> rfl

/-- The sequential machine goes on at the branch target, or at the next index. -/
theorem seqExec_pc (n : Nat) (fill : SrlFill) (i : Instr) (x : RegFile) (p : Word) (m : Memory) :
    (seqExec n fill i ⟨x, p, m⟩).pc = (branchOf i (decodeStage x i)).getD (p + 1#32) := by
  cases i with
  | beq rs rt address =>
    by_cases heq : RegFile.read x rs = RegFile.read x rt <;>
      simp [seqExec, branchOf, beqBranch, decodeStage, rsSource, rtSource, sourceValue, heq]
  | _ => rfl

/-- Where nothing in DE or EM is a source, Decode reads the registers as they will be when those have finished (R140). -/
theorem decodeStage_writeBack {l : MWLatch} {i : Instr} (h : conflicts l.instr i = false) (x : RegFile) :
    decodeStage (writeBack l x) i = decodeStage x i := by
  cases hd : dest l.instr with
  | none => rw [writeBack_of_no_dest hd]
  | some d =>
    have hread (source : Option Reg) (hs : d ≠ 0#5 → source ≠ some d) :
        sourceValue (writeBack l x) source = sourceValue x source := by
      cases source with
      | none => rfl
      | some r =>
        rw [sourceValue, writeBack_of_dest hd, read_write, if_neg]
        · rfl
        · rintro ⟨rfl, hr⟩
          exact hs hr rfl
    simp only [conflicts, hd, readsReg, Bool.and_eq_false_iff, Bool.or_eq_false_iff, decide_eq_false_iff_not, not_not] at h
    rw [decodeStage, hread _ fun hne => (h.resolve_left hne).1, hread _ fun hne => (h.resolve_left hne).2]
    rfl

/-- Decode without a hazard: DE gets what it would get from the retired registers of the next state. -/
theorem exec_de_retired {s t : State} (hhaz : hazardNow s = false) (hb : branchNow s = none)
    (h : exec s.de.instr s = .next t) : t.de = decodeStage t.retired.1 s.fd.instr := by
  obtain ⟨hde, hem⟩ := Bool.or_eq_false_iff.1 hhaz
  have hregs : t.retired.1 =
      writeBack (memoryStage s.memSize s.retired.2 s.executed) (writeBack (memoryStage s.memSize s.mem s.em) t.regs) := by
    rw [exec_retired h, exec_regs h]
    rfl
  rw [hregs, decodeStage_writeBack hde, decodeStage_writeBack hem]
  exact (exec_notSquashed h hb).1

/-! ### Where the sequential machine stands (R77, R79) -/

/-- Fetch takes the word at `pc` in hand, or leaves `pc` there. -/
theorem fetched_index {prog : List InstrWord} {pc pc' : Word} {l : FDLatch} (h : fetchStage prog pc = .ok ⟨l, pc'⟩) :
    (if l = FDLatch.empty then pc' else l.npc - 1#32) = pc := by
  rcases fetchStage_cases h with ⟨-, hf⟩ | ⟨w, i, hw, -, hf⟩
  all_goals obtain ⟨rfl, rfl⟩ := Fetched.mk.inj hf
  · exact if_pos rfl
  · rw [if_neg, BitVec.add_sub_cancel]
    intro he
    obtain ⟨-, hpc⟩ := FDLatch.mk.inj he
    obtain ⟨h0, -⟩ := inBounds_of_wordAt hw
    rw [show pc = -1#32 by bv_omega] at h0
    exact absurd h0 (by decide)

theorem fetchCoherent_of_fetched {s : State} {pc : Word} (h : fetchStage s.prog pc = .ok ⟨s.fd, s.pc⟩) :
    FetchCoherent s := by
  rcases fetchStage_cases h with ⟨-, hf⟩ | ⟨w, i, hw, hi, hf⟩
  all_goals obtain ⟨hfd, hpc⟩ := Fetched.mk.inj hf
  · exact .inl hfd
  · exact .inr ⟨by rw [hfd, hpc], w, by rw [hpc, BitVec.add_sub_cancel, hw], by rw [hfd, hi]⟩

theorem nextIndex_of_no_branch {s : State} (h : branchNow s = none) :
    s.nextIndex = if s.fd = FDLatch.empty then s.pc else s.fd.npc - 1#32 := by
  rw [State.nextIndex, h]

theorem nextIndex_of_branch {s : State} {target : Word} (h : branchNow s = some target) : s.nextIndex = target := by
  rw [State.nextIndex, h]

theorem branchNow_of_bubble {s : State} (h : s.de.instr = .nop) : branchNow s = none := by
  rw [branchNow, h]
  rfl

/-! ### The simulation step -/

/-- A taken branch is where the sequential machine already stands: the flush leaves the drained state as it was. -/
theorem drained_of_flush {s t : State} {target : Word} (hb : branchNow s = some target)
    (h : exec s.de.instr s = .next t) : FetchCoherent t ∧ t.drained = s.drained := by
  obtain ⟨hpc, hfd, hde⟩ := exec_squashed h hb
  replace hfd : t.fd = FDLatch.empty := hfd
  have hnop : t.de.instr = .nop := by rw [hde]
  refine ⟨.inl hfd, ?_⟩
  rw [drained_of_bubble hnop, drained_eq_of_exec h, nextIndex_of_branch hb,
    nextIndex_of_no_branch (branchNow_of_bubble hnop), if_pos hfd, hpc]

/-- With FD empty, DE gets a bubble, and Fetch does not change which instruction is next. -/
theorem drained_of_empty_fd {s t : State} (hb : branchNow s = none) (hfd : s.fd = FDLatch.empty)
    (h : exec s.de.instr s = .next t) : t.drained = s.drained := by
  obtain ⟨hde, hfetch⟩ := exec_notSquashed h hb
  have hnop : t.de.instr = .nop := by rw [hde, hfd]; rfl
  rw [drained_of_bubble hnop, drained_eq_of_exec h, nextIndex_of_no_branch hb, if_pos hfd,
    nextIndex_of_no_branch (branchNow_of_bubble hnop), fetched_index hfetch]

/-- With an instruction in FD and no hazard, the drained state performs that instruction. -/
theorem drained_of_decode {s t : State} {w : InstrWord} (hb : branchNow s = none) (hhaz : hazardNow s = false)
    (hfd : s.fd ≠ FDLatch.empty) (hnpc : s.fd.npc = s.pc) (hw : wordAt s.prog (s.pc - 1#32) = some w)
    (hi : decode w = .ok s.fd.instr) (h : exec s.de.instr s = .next t) :
    seqStep s.prog s.memSize s.srlFill s.drained = some t.drained := by
  obtain ⟨-, hfetch⟩ := exec_notSquashed h hb
  obtain ⟨-, hsize, hfill⟩ := exec_sameProgram h
  have hde := exec_de_retired hhaz hb h
  have hnext : t.nextIndex = (branchOf s.fd.instr t.de).getD s.pc := by
    have hnow : branchNow t = branchOf s.fd.instr t.de := by rw [branchNow, hde]; rfl
    cases hbt : branchNow t with
    | some target => rw [nextIndex_of_branch hbt, ← hnow, hbt, Option.getD_some]
    | none => rw [nextIndex_of_no_branch hbt, ← hnow, hbt, fetched_index hfetch, Option.getD_none]
  have hs : s.drained = ⟨t.retired.1, s.pc - 1#32, t.retired.2⟩ := by
    rw [drained_eq_of_exec h, nextIndex_of_no_branch hb, if_neg hfd, hnpc]
  have ht : t.drained = seqExec s.memSize s.srlFill s.fd.instr s.drained := by
    have hpc := seqExec_pc s.memSize s.srlFill s.fd.instr t.retired.1 (s.pc - 1#32) t.retired.2
    rw [← hde, BitVec.sub_add_cancel, ← hnext] at hpc
    rw [drained_eq, finishEM_executed hde t.retired.2 (s.pc - 1#32), hsize, hfill, hs, ← hpc]
  have hw' : wordAt s.prog s.drained.pc = some w := by rw [hs, hw]
  simp only [seqStep, hw', hi, ht]

/-- Settles O53: the drained state stays through a halted step, a flush and an empty FD, and otherwise performs what is in FD. -/
theorem hazardFreeStepIsSequential : Obligations.HazardFreeStepIsSequential := by
  intro s t hcoh hhaz hst
  obtain ⟨-, ⟨-, rfl⟩ | ⟨-, h⟩⟩ := step_cases hst
  · exact ⟨hcoh, .inl rfl⟩
  cases hb : branchNow s with
  | some target =>
    obtain ⟨hcoh', hdrained⟩ := drained_of_flush hb h
    exact ⟨hcoh', .inl hdrained⟩
  | none =>
    obtain ⟨hprog, -⟩ := exec_sameProgram h
    obtain ⟨-, hfetch⟩ := exec_notSquashed h hb
    refine ⟨fetchCoherent_of_fetched (hprog ▸ hfetch), ?_⟩
    by_cases hfd : s.fd = FDLatch.empty
    · exact .inl (drained_of_empty_fd hb hfd h)
    · obtain ⟨hnpc, w, hw, hi⟩ := hcoh.resolve_left hfd
      exact .inr (drained_of_decode hb hhaz hfd hnpc hw hi h)

/-! ### A whole run (R144) -/

/-- A bubble in every latch: nothing is left to do, and the registers and the memory are the visible ones. -/
theorem drained_of_bubbles {s : State} (hde : s.de.instr = .nop) (hem : s.em.instr = .nop) (hmw : s.mw.instr = .nop) :
    s.drained = ⟨s.regs, s.nextIndex, s.mem⟩ := by
  rw [drained_of_bubble hde, State.retired, finishEM_nop hem, writeBack_of_no_dest (by rw [hmw]; rfl)]

/-- Settles O54: with empty latches the next instruction is at `pc`; in a halted state it is there too, or FD holds a last NOP, which
the sequential machine passes in one step. -/
theorem drainedAgreesAtTheEnds : Obligations.DrainedAgreesAtTheEnds := by
  refine ⟨fun s hfd hde hem hmw => ⟨.inl hfd, ?_⟩, fun s hcoh hh => ?_⟩
  · have hnop : s.de.instr = .nop := by rw [hde]; rfl
    rw [drained_of_bubbles hnop (by rw [hem]; rfl) (by rw [hmw]; rfl),
      nextIndex_of_no_branch (branchNow_of_bubble hnop), if_pos hfd]
    rfl
  · obtain ⟨-, hfdi, hde, hem, hmw⟩ := (halted_iff s).1 hh
    rw [drained_of_bubbles hde hem hmw, nextIndex_of_no_branch (branchNow_of_bubble hde)]
    by_cases hfd : s.fd = FDLatch.empty
    · rw [if_pos hfd]
      exact .inl rfl
    · obtain ⟨hnpc, w, hw, hi⟩ := hcoh.resolve_left hfd
      rw [if_neg hfd, hnpc]
      refine .inr ?_
      simp [seqStep, hw, hi, hfdi, seqExec, State.seqView]

/-- The first cycle of a hazard-free run has no hazard, and the rest of the run is hazard-free. -/
theorem HazardFree.head_tail {n : Nat} {s u : State} (h : HazardFree (n + 1) s) (hst : step s = .next u) :
    hazardNow s = false ∧ HazardFree n u :=
  ⟨h 0 s n.succ_pos rfl, fun k t hk hrun => h (k + 1) t (Nat.succ_lt_succ hk) (run_succ_next_iff.2 ⟨u, hst, hrun⟩)⟩

theorem seqRun_succ {prog : List InstrWord} {n m : Nat} {fill : SrlFill} {q q' : SeqState}
    (h : seqStep prog n fill q = some q') : seqRun prog n fill (m + 1) q = seqRun prog n fill m q' := by
  rw [seqRun, h]

/-- A run of the sequential machine extended by one last step. -/
theorem seqRun_then_step {prog : List InstrWord} {n m : Nat} {fill : SrlFill} {q q' q'' : SeqState}
    (h : seqRun prog n fill m q = some q') (hlast : seqStep prog n fill q' = some q'') :
    seqRun prog n fill (m + 1) q = some q'' := by
  induction m generalizing q with
  | zero =>
    cases h
    exact seqRun_succ hlast
  | succ m ih =>
    cases hfirst : seqStep prog n fill q with
    | none => simp [seqRun, hfirst] at h
    | some r => exact (seqRun_succ hfirst).trans (ih ((seqRun_succ hfirst).symm.trans h))

/-- A hazard-free run takes the drained state through a run of the sequential machine. -/
theorem run_drained {n : Nat} {s t : State} (hcoh : FetchCoherent s) (hfree : HazardFree n s) (h : run n s = .next t) :
    FetchCoherent t ∧ ∃ m, seqRun s.prog s.memSize s.srlFill m s.drained = some t.drained := by
  induction n generalizing s with
  | zero =>
    cases h
    exact ⟨hcoh, 0, rfl⟩
  | succ n ih =>
    obtain ⟨u, hst, hrun⟩ := run_succ_next_iff.1 h
    obtain ⟨hhaz, hfree'⟩ := hfree.head_tail hst
    obtain ⟨hcoh', hmove⟩ := hazardFreeStepIsSequential s u hcoh hhaz hst
    obtain ⟨hcoht, m, hm⟩ := ih hcoh' hfree' hrun
    obtain ⟨hprog, hsize, hfill⟩ := step_sameProgram hst
    rw [hprog, hsize, hfill] at hm
    refine ⟨hcoht, ?_⟩
    obtain hsame | hseq := hmove
    · exact ⟨m, hsame ▸ hm⟩
    · exact ⟨m + 1, (seqRun_succ hseq).trans hm⟩

/-- Settles O43: the drained state is the visible one at the start, moves as the sequential machine does, and at the halt is the
visible one again, up to one NOP; there `pc` is outside the program. -/
theorem hazardFreeRunIsSequential : Obligations.HazardFreeRunIsSequential := by
  intro s t n _ _ hfd hde hem hmw hfree hrun hh
  obtain ⟨hstart, hend⟩ := drainedAgreesAtTheEnds
  obtain ⟨hcoh, hview⟩ := hstart s hfd hde hem hmw
  obtain ⟨hcoht, m, hm⟩ := run_drained hcoh hfree hrun
  obtain ⟨hprog, hsize, hfill⟩ := run_sameProgram hrun
  obtain ⟨hout, -⟩ := (halted_iff t).1 hh
  have hstop : seqStep s.prog s.memSize s.srlFill t.seqView = none := by
    rw [seqStep, show wordAt s.prog t.seqView.pc = none from wordAt_eq_none (hprog ▸ hout)]
  rw [hview] at hm
  obtain hsame | hlast := hend t hcoht hh
  · exact ⟨m, hsame ▸ hm, hstop⟩
  · rw [hprog, hsize, hfill] at hlast
    exact ⟨m + 1, seqRun_then_step hm hlast, hstop⟩

end Sys2Proof.Machine
end

section
/-! Runs of a program text: instructions spaced two slots apart meet no hazard (R140, R144), and a program without branches runs for
a known number of cycles (R146). -/

namespace Sys2Proof.Machine

/-! ### The instruction that is fetched (R77) -/

theorem toNat_pc_add_one {pc : Word} (h : 0 ≤ pc.toInt) : (pc + 1#32).toNat = pc.toNat + 1 := by
  have hlt := BitVec.toInt_pos_iff.1 h
  bv_omega

theorem instrAt_of_wordAt {prog : List InstrWord} {pc : Word} {w : InstrWord} {i : Instr}
    (hw : wordAt prog pc = some w) (hi : decode w = .ok i) : instrAt prog pc.toNat = some i := by
  rw [wordAt_eq_getElem? (inBounds_of_wordAt hw)] at hw
  simp [instrAt, hw, hi]

theorem lt_length_of_instrAt {prog : List InstrWord} {k : Nat} {i : Instr} (h : instrAt prog k = some i) :
    k < prog.length := by
  by_contra hk
  simp [instrAt, List.getElem?_eq_none (not_lt.1 hk)] at h

/-- Where an admitted image has no word at `pc`, it has no instruction there, `pc` negative included. -/
theorem instrAt_of_no_wordAt {prog : List InstrWord} {pc : Word} (himg : imageOk prog = true)
    (hw : wordAt prog pc = none) : instrAt prog pc.toNat = none := by
  cases hi : instrAt prog pc.toNat with
  | none => rfl
  | some i =>
    have hlt := lt_length_of_instrAt hi
    have hint : pc.toInt = pc.toNat := by
      rw [← toInt_ofNat_of_le (hlt.le.trans (imageOk_iff.1 himg).1), BitVec.ofNat_toNat, BitVec.setWidth_eq]
    exact absurd hw (wordAt_ne_none (by omega))

/-! ### Spaced programs (R144) -/

@[simp] theorem conflicts_nop_left (c : Instr) : conflicts .nop c = false := rfl

@[simp] theorem conflicts_nop_right (p : Instr) : conflicts p .nop = false := by
  unfold conflicts
  cases dest p <;> simp [readsReg, rsSource, rtSource]

/-- No hazard now, and none to come for the next two words from the instructions that are in FD and DE now. -/
structure NoHazardAhead (image : List InstrWord) (s : State) : Prop where
  prog : s.prog = image
  now : hazardNow s = false
  next : ∀ c, instrAt image s.pc.toNat = some c → conflicts s.fd.instr c = false ∧ conflicts s.de.instr c = false
  afterNext : ∀ c, instrAt image (s.pc.toNat + 1) = some c → conflicts s.fd.instr c = false

/-- Bubbles in FD and DE conflict with nothing. -/
theorem noHazardAhead_of_bubbles {image : List InstrWord} {s : State} (hprog : s.prog = image)
    (hfd : s.fd.instr = .nop) (hde : s.de.instr = .nop) : NoHazardAhead image s := by
  refine ⟨hprog, ?_, fun c _ => ?_, fun c _ => ?_⟩ <;> simp [hazardNow, hfd, hde]

/-- Each word fetched is spaced from the two before it, so a step keeps the machine clear of hazards: a flush leaves bubbles in FD
and DE, and outside the program only bubbles follow. -/
theorem step_noHazardAhead {image : List InstrWord} {s t : State} (himg : imageOk image = true) (hsp : Spaced image)
    (hs : NoHazardAhead image s) (h : step s = .next t) : NoHazardAhead image t := by
  obtain ⟨-, ⟨-, rfl⟩ | ⟨-, he⟩⟩ := step_cases h
  · exact hs
  obtain ⟨rfl, -, hnext, hafter⟩ := hs
  obtain ⟨hprog, -⟩ := exec_sameProgram he
  cases hb : branchOf s.de.instr s.de with
  | some target =>
    obtain ⟨-, hfd, hde⟩ := exec_squashed he hb
    exact noHazardAhead_of_bubbles hprog (by rw [hfd]) (by rw [hde])
  | none =>
    obtain ⟨hde, hfetch⟩ := exec_notSquashed he hb
    replace hde : t.de.instr = s.fd.instr := by rw [hde]; rfl
    have hem : t.em.instr = s.de.instr := by rw [exec_em he]
    rcases fetchStage_cases hfetch with ⟨hnone, hf⟩ | ⟨w, i, hw, hi, hf⟩
    all_goals obtain ⟨hfd, hpc⟩ := Fetched.mk.inj hf
    · have hfdi : t.fd.instr = .nop := by rw [hfd]; rfl
      refine ⟨hprog, by simp [hazardNow, hfdi], fun c hc => ?_, fun c _ => by simp [hfdi]⟩
      rw [hpc, instrAt_of_no_wordAt himg hnone] at hc
      cases hc
    · have hati := instrAt_of_wordAt hw hi
      obtain ⟨h0, -⟩ := inBounds_of_wordAt hw
      have hfdi : t.fd.instr = i := by rw [hfd]
      have hpc' : t.pc.toNat = s.pc.toNat + 1 := by rw [hpc, toNat_pc_add_one h0]
      obtain ⟨hcfd, hcde⟩ := hnext i hati
      refine ⟨hprog, by simp [hazardNow, hde, hem, hfdi, hcfd, hcde], fun c hc => ?_, fun c hc => ?_⟩
      · rw [hpc'] at hc
        rw [hfdi, hde]
        exact ⟨hsp _ i c hati (.inl hc), hafter c hc⟩
      · rw [hpc'] at hc
        rw [hfdi]
        exact hsp _ i c hati (.inr hc)

/-- What every step keeps, every run keeps. -/
theorem run_keeps {P : State → Prop} (hstep : ∀ s t, P s → step s = .next t → P t) {n : Nat} {s t : State} (hs : P s)
    (h : run n s = .next t) : P t := by
  induction n generalizing s with
  | zero =>
    cases h
    exact hs
  | succ n ih =>
    obtain ⟨u, hst, hrun⟩ := run_succ_next_iff.1 h
    exact ih (hstep s u hs hst) hrun

/-- Settles O44: the loaded machine holds bubbles, so it is clear of hazards, and every step keeps it so. -/
theorem spacedProgramIsHazardFree : Obligations.SpacedProgramIsHazardFree := by
  intro image n fill s hload hsp k j t _ hrun
  obtain ⟨himg, -, rfl⟩ := load_ok_iff.1 hload
  have hstart : NoHazardAhead image { State.reset with prog := image, memSize := n, srlFill := fill } :=
    noHazardAhead_of_bubbles rfl rfl rfl
  exact (run_keeps (fun _ _ => step_noHazardAhead himg hsp) hstart hrun).now

/-! ### Programs without branches (R146) -/

/-- The instruction at index `k`, and bubbles beyond the program. -/
def slotAt (image : List InstrWord) (k : Nat) : Instr := (instrAt image k).getD .nop

/-- The instruction fetched `d` cycles before the cycle `m`, counted from 0; a bubble where the run was not so old. -/
def fetchedBefore (image : List InstrWord) (m d : Nat) : Instr := if d ≤ m then slotAt image (m - d) else .nop

theorem fetchedBefore_succ (image : List InstrWord) (m d : Nat) :
    fetchedBefore image (m + 1) (d + 1) = fetchedBefore image m d := by
  simp [fetchedBefore]

/-- What holds of every instruction of the image and of the bubble holds of every slot. -/
theorem fetchedBefore_induction {image : List InstrWord} {P : Instr → Prop} {m d : Nat} (hnop : P .nop)
    (h : ∀ c, instrAt image (m - d) = some c → P c) : P (fetchedBefore image m d) := by
  unfold fetchedBefore slotAt
  split
  · cases hc : instrAt image (m - d) with
    | none => exact hnop
    | some c => exact h c hc
  · exact hnop

/-- The state after `m` cycles of a program without branches: the last four words fetched are in the four latches. -/
structure StraightRun (image : List InstrWord) (m : Nat) (s : State) : Prop where
  prog : s.prog = image
  pc : s.pc = BitVec.ofNat 32 (min m image.length)
  cycles : s.cycles = m
  fd : s.fd.instr = fetchedBefore image m 1
  de : s.de.instr = fetchedBefore image m 2
  em : s.em.instr = fetchedBefore image m 3
  mw : s.mw.instr = fetchedBefore image m 4

/-- In cycle `m` Fetch delivers the word at index `m` and moves `pc` past it, as long as there is one. -/
theorem fetchStage_straight {image : List InstrWord} {m : Nat} {f : Fetched} (himg : imageOk image = true)
    (h : fetchStage image (BitVec.ofNat 32 (min m image.length)) = .ok f) :
    f.latch.instr = slotAt image m ∧ f.pc = BitVec.ofNat 32 (min (m + 1) image.length) := by
  obtain ⟨hlen, -⟩ := imageOk_iff.1 himg
  have hpc : (BitVec.ofNat 32 (min m image.length)).toInt = (min m image.length : Nat) :=
    toInt_ofNat_of_le (by omega)
  rcases fetchStage_cases h with ⟨hnone, rfl⟩ | ⟨w, i, hw, hi, rfl⟩
  · have hm : image.length ≤ m := by
      by_contra hm
      exact wordAt_ne_none (by omega) hnone
    refine ⟨?_, by rw [min_eq_right hm, min_eq_right (by omega)]⟩
    cases hc : instrAt image m with
    | none => simp [slotAt, hc, FDLatch.empty]
    | some c => exact absurd (lt_length_of_instrAt hc) (by omega)
  · have hm : m < image.length := by
      have := (inBounds_of_wordAt hw).2
      omega
    rw [min_eq_left hm.le] at hw ⊢
    rw [min_eq_left hm]
    have hnat : (BitVec.ofNat 32 m).toNat = m := by
      simp only [Config.maxProgLen] at hlen
      rw [BitVec.toNat_ofNat, Nat.mod_eq_of_lt (by omega)]
    exact ⟨by rw [slotAt, ← hnat, instrAt_of_wordAt hw hi]; rfl, by rw [BitVec.ofNat_add]⟩

/-- A cycle of such a run moves every instruction on by one latch. -/
theorem step_straight {image : List InstrWord} {m : Nat} {s : State} (himg : imageOk image = true)
    (hstraight : ∀ k c, instrAt image k = some c → transfersControl c = false) (hs : StraightRun image m s)
    (hrun : halted s = false) : ∃ t, step s = .next t ∧ StraightRun image (m + 1) t := by
  obtain ⟨rfl, hpc, hcycles, hfd, hde, hem, hmw⟩ := hs
  have hb : branchOf s.de.instr s.de = none := by
    refine branchOf_of_not_transfersControl ?_ s.de
    rw [hde]
    exact fetchedBefore_induction (P := fun c => transfersControl c = false) rfl fun c => hstraight _ c
  obtain ⟨t, hst, ht, -⟩ := step_completes_running himg hrun
  obtain ⟨hdet, hfetch⟩ := exec_notSquashed ht hb
  obtain ⟨hprog, -⟩ := exec_sameProgram ht
  rw [hpc] at hfetch
  obtain ⟨hfdt, hpct⟩ := fetchStage_straight himg hfetch
  refine ⟨t, hst, hprog, hpct, by rw [exec_cycles ht, hcycles], ?_, ?_, ?_, ?_⟩
  · rw [hfdt]
    rfl
  · rw [fetchedBefore_succ, ← hfd, hdet]
    rfl
  · rw [fetchedBefore_succ, ← hde, exec_em ht]
  · rw [fetchedBefore_succ, ← hem, exec_mw ht, memoryStage_instr]

/-- Such a run goes on while there are words to fetch or the instruction at index `v` is in a latch. -/
theorem straight_not_halted {image : List InstrWord} {m v : Nat} {i : Instr} {s : State} (himg : imageOk image = true)
    (hs : StraightRun image m s) (hv : instrAt image v = some i) (hvalid : i.valid = true)
    (hm : m < max image.length (v + 5)) : halted s = false := by
  obtain ⟨rfl, hpc, -, hfd, hde, hem, hmw⟩ := hs
  have hvlt := lt_length_of_instrAt hv
  have hslot (d : Nat) : fetchedBefore s.prog (v + d) d = i := by simp [fetchedBefore, slotAt, hv]
  obtain hlt | rfl | rfl | rfl | rfl :
      m < s.prog.length ∨ m = v + 1 ∨ m = v + 2 ∨ m = v + 3 ∨ m = v + 4 := by omega
  · refine not_halted_of_inBounds ?_
    rw [hpc, min_eq_left hlt.le, toInt_ofNat_of_le (hlt.le.trans (imageOk_iff.1 himg).1)]
    omega
  · exact not_halted_of_fd (by rw [hfd, hslot, hvalid])
  · exact not_halted_of_de (by rw [hde, hslot, hvalid])
  · exact not_halted_of_em (by rw [hem, hslot, hvalid])
  · exact not_halted_of_mw (by rw [hmw, hslot, hvalid])

/-- It has halted once all words are fetched and the last valid one, at index `v`, has left the four latches. -/
theorem straight_halted {image : List InstrWord} {m v : Nat} {s : State} (himg : imageOk image = true)
    (hs : StraightRun image m s) (hlast : ∀ k c, v < k → instrAt image k = some c → c.valid = false)
    (hm : max image.length (v + 5) ≤ m) : halted s = true ∧ s.pc.toInt = image.length := by
  obtain ⟨rfl, hpc, -, hfd, hde, hem, hmw⟩ := hs
  have hpc' : s.pc.toInt = s.prog.length := by
    rw [hpc, min_eq_right (by omega), toInt_ofNat_of_le (imageOk_iff.1 himg).1]
  have hslot {d : Nat} (hd : d ≤ 4) : fetchedBefore s.prog m d = .nop :=
    fetchedBefore_induction (P := fun c => c = .nop) rfl fun c hc => valid_eq_false.1 (hlast _ c (by omega) hc)
  refine ⟨(halted_iff s).2 ⟨by omega, ?_, ?_, ?_, ?_⟩, hpc'⟩
  · rw [hfd, hslot (by decide)]
  · rw [hde, hslot (by decide)]
  · rw [hem, hslot (by decide)]
  · rw [hmw, hslot (by decide)]

/-- A run extended by one last step. -/
theorem run_then_step {n : Nat} {s t u : State} (h : run n s = .next t) (hlast : step t = .next u) :
    run (n + 1) s = .next u := by
  induction n generalizing s with
  | zero =>
    cases h
    exact run_succ_next_iff.2 ⟨u, hlast, rfl⟩
  | succ n ih =>
    obtain ⟨r, hst, hrun⟩ := run_succ_next_iff.1 h
    exact run_succ_next_iff.2 ⟨r, hst, ih hrun⟩

/-- Settles O49: cycle by cycle the run stays a straight one and does not halt before its last cycle. -/
theorem straightLineRunLength : Obligations.StraightLineRunLength := by
  intro image n fill s v i hload hstraight hv hvalid hlast
  obtain ⟨himg, -, rfl⟩ := load_ok_iff.1 hload
  generalize hstart : ({ State.reset with prog := image, memSize := n, srlFill := fill } : State) = s
  have h0 : StraightRun image 0 s := by
    subst hstart
    exact ⟨rfl, by rw [Nat.zero_min]; rfl, rfl, rfl, rfl, rfl, rfl⟩
  have hruns (m : Nat) (hm : m ≤ max image.length (v + 5)) : ∃ t, run m s = .next t ∧ StraightRun image m t := by
    induction m with
    | zero => exact ⟨s, rfl, h0⟩
    | succ m ih =>
      obtain ⟨t, hrun, ht⟩ := ih (by omega)
      obtain ⟨u, hst, hu⟩ := step_straight himg hstraight ht (straight_not_halted himg ht hv hvalid (by omega))
      exact ⟨u, run_then_step hrun hst, hu⟩
  refine ⟨?_, fun m hm => ?_⟩
  · obtain ⟨t, hrun, ht⟩ := hruns _ le_rfl
    obtain ⟨hh, hpc⟩ := straight_halted himg ht hlast le_rfl
    exact ⟨t, hrun, hh, ht.cycles, hpc⟩
  · obtain ⟨t, hrun, ht⟩ := hruns m hm.le
    exact ⟨t, hrun, straight_not_halted himg ht hv hvalid hm⟩

end Sys2Proof.Machine
end
